-- ==== Sys2Proof/Word.lean ====
section
/-! DEFINITION. The words of the engine: a 32-bit word and a byte (rule R13). Every value is an unsigned bit vector,
and the only arithmetic on words is the bitwise exclusive-or of rule R14, which is the library's `^^^`. -/

namespace Sys2Proof

/-- A word: 32 bits, four bytes (rule R13). Bit 0 is the least significant. -/
abbrev Word := BitVec 32

/-- A byte: 8 bits (rule R13). -/
abbrev Byte := BitVec 8

end Sys2Proof
end

