-- ==== Sys2Proof/Config.lean ====
section
/-! DEFINITION. What the spec leaves open (the parameters of rules R10 to R12 and the free value of rule R91), as constants without a body: no
proof can know their values, so a claim holds whatever they are. -/

namespace Sys2Proof.Config

/-- `Draw32()` (rules R82, R91): the free 32-bit value that the k-th busy read of STATE, WA or KS returns. The step applies it
to the counter `State.draws`, which every such read advances, so each read draws afresh (log 1). -/
opaque draw32 : Nat → Word

/-- ENGINE_BASE divided by 512 (rule R10): the platform places the window at a 512-byte aligned address (log 2). -/
opaque engineBlock : Nat

/-- ENGINE_BASE (rule R10), the host address of the 512-byte register window. -/
def engineBase : Nat := 512 * engineBlock

/-- LAT(op) less one (rule R11), for each opcode value (log 3). -/
opaque extraLatency : BitVec 8 → Nat

/-- LAT(op) (rule R11): the cycles from a command's acceptance to its completion, at least 1. No rule reads it (rule R330): a
command's duration is only the freedom of host events to fall before the engine's turn. -/
def latency (opc : BitVec 8) : Nat := extraLatency opc + 1

end Sys2Proof.Config
end

