-- ==== Sys2Proof/Syntax.lean ====
section
/-! DEFINITION. The commands of the engine, which take the place of instructions (the map of rule R124): one constructor for each
row of the opcode table. An F1 command carries its 8-bit argument field ARG (rules R121, R122); an F0 command carries
nothing. No command has a register field (rule R123). -/

namespace Sys2Proof

inductive Instr where
  /-- NOP, no operation (R150). -/
  | nop
  /-- SUBB, substitute-bytes (R240). -/
  | subb
  /-- ISUBB, inverse substitute-bytes (R241). -/
  | isubb
  /-- SHROW, shift-rows (R242). -/
  | shrow
  /-- ISHROW, inverse shift-rows (R243). -/
  | ishrow
  /-- MIXCOL, mix-columns (R244). -/
  | mixcol
  /-- IMIXCOL, inverse mix-columns (R245). -/
  | imixcol
  /-- ADDRK n, add the round key of round n (R246). -/
  | addrk (n : BitVec 8)
  /-- TRANSP, transpose the state matrix (R151). -/
  | transp
  /-- XORB, block exclusive-or (R152). -/
  | xorb
  /-- GETCOL n, column n to WA (R153). -/
  | getcol (n : BitVec 8)
  /-- SETCOL n, WA to column n (R154). -/
  | setcol (n : BitVec 8)
  /-- GETROW n, row n to WA (R155). -/
  | getrow (n : BitVec 8)
  /-- SETROW n, WA to row n (R156). -/
  | setrow (n : BitVec 8)
  /-- XORW, word exclusive-or (R157). -/
  | xorw
  /-- ROTW, rotate WA left by one byte (R213). -/
  | rotw
  /-- SUBW, substitute the bytes of WA (R214). -/
  | subw
  /-- RCON n, exclusive-or round-constant word n into WA (R215). -/
  | rcon (n : BitVec 8)
  /-- EXPAND, expand the key into the key schedule (R216). -/
  | expand
deriving DecidableEq, Repr

/-- Why a word is no command, whatever the engine's state: the checks of rule R280 that look at the word alone. -/
inductive DecodeError where
  /-- the OPC field is not in the opcode map (E_OPC, R125) -/
  | opc
  /-- RSVD is not 0, or ARG is not 0 on an F0 command (E_RSVD, R122) -/
  | rsvd
  /-- ARG is above what any key size allows the F1 command (E_RANGE, R122) -/
  | range
deriving DecidableEq, Repr

end Sys2Proof
end

