-- ==== Sys2Proof/WellFormed.lean ====
section
/-! DEFINITION. Well-formed commands: ARG lies in the command's range (the table of rule R124). The range of ADDRK is
0..Nr for the key size in force; what every key size refuses (above 14) is refused here, and the rest of the check, which reads CTRL.KSZ, is made
when the command is accepted (`Machine.acceptanceError`, rule R280). -/

namespace Sys2Proof

/-- The largest ARG a command may carry under some key size; `none` for an F0 command (rules R122, R124, R8). -/
def Instr.argMax : Instr → Option Nat
  | .addrk _ => some 14
  | .getcol _ | .setcol _ | .getrow _ | .setrow _ => some 3
  | .rcon _ => some 10
  | .nop | .subb | .isubb | .shrow | .ishrow | .mixcol | .imixcol | .transp | .xorb | .xorw | .rotw | .subw
  | .expand => none

/-- The command's argument n = zext_32(ARG), 0 for an F0 command (rule R122). -/
def Instr.arg : Instr → BitVec 8
  | .addrk n | .getcol n | .setcol n | .getrow n | .setrow n | .rcon n => n
  | .nop | .subb | .isubb | .shrow | .ishrow | .mixcol | .imixcol | .transp | .xorb | .xorw | .rotw | .subw
  | .expand => 0

/-- ARG lies in the command's range (rule R124). -/
def Instr.wellFormed (i : Instr) : Bool :=
  match i.argMax with
  | none => true
  | some m => decide (i.arg.toNat ≤ m)

end Sys2Proof
end

