-- ==== Sys2Proof/Decode.lean ====
section
/-! DEFINITION. The command word (its fields are those of rule R121), the opcode map (rule R124), the decoder and the encoder. The decoder makes the checks of
rule R280 that need the word alone, in that rule's order. -/

namespace Sys2Proof

/-- OPC, bits [7:0] of a command word (rule R121). -/
def opcField (v : Word) : BitVec 8 := v.extractLsb' 0 8

/-- ARG, bits [15:8] of a command word (rule R121). -/
def argField (v : Word) : BitVec 8 := v.extractLsb' 8 8

/-- RSVD, bits [31:16] of a command word, which must be 0 (rule R121). -/
def rsvdField (v : Word) : BitVec 16 := v.extractLsb' 16 16

/-- The command an OPC value stands for, given ARG; `none` for a reserved OPC (rules R124, R125). -/
def opcodeMap (opc arg : BitVec 8) : Option Instr :=
  match opc.toNat with
  | 0x00 => some .nop
  | 0x01 => some .subb
  | 0x02 => some .isubb
  | 0x03 => some .shrow
  | 0x04 => some .ishrow
  | 0x05 => some .mixcol
  | 0x06 => some .imixcol
  | 0x07 => some (.addrk arg)
  | 0x10 => some .transp
  | 0x11 => some .xorb
  | 0x12 => some (.getcol arg)
  | 0x13 => some (.setcol arg)
  | 0x14 => some (.getrow arg)
  | 0x15 => some (.setrow arg)
  | 0x16 => some .xorw
  | 0x20 => some .rotw
  | 0x21 => some .subw
  | 0x22 => some (.rcon arg)
  | 0x30 => some .expand
  | _ => none

/-- The decoder: the checks of rule R280 on the word alone, in its order: OPC, then RSVD, then ARG = 0 on an F0 command, then
ARG's range on an F1 command (for ADDRK the range of the largest key size). -/
def decode (v : Word) : Except DecodeError Instr :=
  match opcodeMap (opcField v) (argField v) with
  | none => .error .opc
  | some i =>
    if rsvdField v ≠ 0 then .error .rsvd
    else
      match i.argMax with
      | none => if argField v ≠ 0 then .error .rsvd else .ok i
      | some m => if m < (argField v).toNat then .error .range else .ok i

/-- The OPC value of a command (rule R124). -/
def opcodeOf : Instr → BitVec 8
  | .nop => 0x00
  | .subb => 0x01
  | .isubb => 0x02
  | .shrow => 0x03
  | .ishrow => 0x04
  | .mixcol => 0x05
  | .imixcol => 0x06
  | .addrk _ => 0x07
  | .transp => 0x10
  | .xorb => 0x11
  | .getcol _ => 0x12
  | .setcol _ => 0x13
  | .getrow _ => 0x14
  | .setrow _ => 0x15
  | .xorw => 0x16
  | .rotw => 0x20
  | .subw => 0x21
  | .rcon _ => 0x22
  | .expand => 0x30

/-- A command word from its fields, RSVD = 0 (rule R121). -/
def commandWord (opc arg : BitVec 8) : Word := 0#16 ++ arg ++ opc

/-- The encoder: the command's one word (rules R121, R124, R127). -/
def encode (i : Instr) : Word := commandWord (opcodeOf i) i.arg

/-- The command word whose low `nbits` bits are those of `w` and whose other bits are 0. -/
def tableWord (nbits w : Nat) : Word := BitVec.ofNat 32 (w % 2 ^ nbits)

/-- The command the decoder reads from a row of the opcode table; `none` where it refuses. A command is one 32-bit word
(rule R120), so the word goes to the decoder whole and no byte order arises. -/
def decodeTableWord (nbits w : Nat) : Option Instr :=
  match decode (tableWord nbits w) with
  | .ok i => some i
  | .error _ => none

end Sys2Proof
end

