-- ==== Sys2Proof/Machine/State.lean ====
section
/-! DEFINITION. The state of the engine (the list of rule R40) as plain data, with the host's pending events and the model's two own fields beside it,
the reasons a step can stop, and the state after reset (rule R58). -/

namespace Sys2Proof.Machine

/-- CTRL.KSZ (rules R45, R46): the key-size variant. The encoding 11 is reserved and never held. -/
inductive KeySize where
  /-- KSZ = 00: Nk = 4, Nr = 10 -/
  | k128
  /-- KSZ = 01: Nk = 6, Nr = 12 -/
  | k192
  /-- KSZ = 10: Nk = 8, Nr = 14 -/
  | k256
deriving DecidableEq, Repr

/-- STATUS.ERRCODE (rules R48, R281). The codes 7 to 15 are never produced. -/
inductive ErrorCode where
  /-- 0: no error since ERR was last cleared -/
  | noError
  /-- 1, E_OPC: the OPC field is not in the opcode map -/
  | opc
  /-- 2, E_RSVD: RSVD is not 0, or ARG is not 0 on an F0 command -/
  | rsvd
  /-- 3, E_RANGE: ARG is above the command's range -/
  | range
  /-- 4, E_KSINV: ADDRK with STATUS.KSV = 0 -/
  | ksinv
  /-- 5, E_BUSY: a write while a command is in flight -/
  | busy
  /-- 6, E_CTRL: the reserved KSZ encoding 11 written -/
  | ctrl
deriving DecidableEq, Repr

/-- A 128-bit block as its four column words (rules R43, R44). -/
structure Block where
  c0 : Word
  c1 : Word
  c2 : Word
  c3 : Word
deriving DecidableEq, Repr

/-- One host access as the bus ports present it (rule R80): the byte offset bus_addr, bus_size and, for a write, bus_wdata. -/
inductive BusAccess where
  /-- bus_write = 0 -/
  | read (off : BitVec 9) (size : BitVec 2)
  /-- bus_write = 1 -/
  | write (off : BitVec 9) (size : BitVec 2) (data : Word)
deriving DecidableEq, Repr

/-- What happens next to the engine, from outside or by the passing of time (rules R20, R56, R320). A list of events is one
interleaving of the two agents (log 4). -/
inductive Event where
  /-- the host makes one access -/
  | host (a : BusAccess)
  /-- the engine takes its turn: it completes the command in flight, if there is one -/
  | engine
  /-- rst is 1 at a clock edge, with the access the host presents at that edge, if any -/
  | reset (a : Option BusAccess)
deriving DecidableEq, Repr

/-- Reasons a step stops with a fault. The engine itself has none: it has no traps (rule R289). -/
inductive Fault where
  /-- Raised by the meaning of an F1 command whose ARG is out of its range. Rule R280 lets no such command become PEND, so no
  state of the invariant `State.Inv` meets it. Safe: the model stops where the hardware has no behaviour. -/
  | argOutOfRange
deriving DecidableEq, Repr

/-- Reasons a step is refused: the model has no meaning for it (rule R21). -/
inductive Refusal where
  /-- An instruction that has no meaning yet, by its mnemonic. No arm of `exec` raises it. Safe: the model stops. -/
  | notModelled (mnemonic : String)
  /-- A host access with bus_size other than 10 (BUS_SUBWORD, rule R86), raised by `busAccess` and `busReset`. Safe: the model stops. -/
  | subWordAccess
  /-- A 32-bit host access at an offset that is no multiple of 4 (BUS_SUBWORD, rule R86), raised by `busAccess` and `busReset`. Safe: the
  model stops. -/
  | misalignedAccess
deriving DecidableEq, Repr

/-- The state. The fields `ksz` to `pend` are the engine's architectural state, all of it (rule R40). STATUS.BUSY, irq and the
values of CTRL and STATUS are derived from them (`Flags.lean`); CMD and ID hold nothing (rules R50, R51). `events` is the
host's input; `reply` and `draws` are the model's own. -/
structure State where
  /-- CTRL.KSZ (R45, R46) -/
  ksz : KeySize
  /-- CTRL.IRQEN (R45) -/
  irqEn : Bool
  /-- STATUS.DONE (R48) -/
  done : Bool
  /-- STATUS.ERR (R48) -/
  err : Bool
  /-- STATUS.ERRCODE (R48, R281) -/
  errCode : ErrorCode
  /-- STATUS.KSV (R48, R53) -/
  ksv : Bool
  /-- STATE, the cipher state STATE_C0..C3 (R43) -/
  state : Block
  /-- OPB, the operand of the block XOR, OPB_C0..C3 (R44) -/
  opb : Block
  /-- WA (R42) -/
  wa : Word
  /-- WB (R42) -/
  wb : Word
  /-- KS, the key-schedule memory of 60 words (R52) -/
  ks : Vector Word 60
  /-- PEND, the command in flight (R55) -/
  pend : Option Instr
  /-- The host's accesses and resets and the engine's turns still to come, the next one first (R20, log 4). -/
  events : List Event
  /-- The value the last host read returned on bus_rdata, `none` before the first (R80, R82, log 5). -/
  reply : Option Word
  /-- How many free values busy reads have drawn (R91, log 1). -/
  draws : Nat
deriving DecidableEq, Repr

/-- A block of four zero words. -/
def Block.zero : Block := ⟨0, 0, 0, 0⟩

/-- The state right after reset (rules R58, R320). Nothing has been asked of the engine yet, and it waits (rule R322). -/
def State.reset : State where
  ksz := .k128
  irqEn := false
  done := false
  err := false
  errCode := .noError
  ksv := false
  state := Block.zero
  opb := Block.zero
  wa := 0
  wb := 0
  ks := Vector.replicate 60 0
  pend := none
  events := []
  reply := none
  draws := 0

end Sys2Proof.Machine
end

