-- ==== Sys2Proof/Machine/Operands.lean ====
section
/-! DEFINITION. How operands are read and written: byte lanes of a word (the order is rule R15's), the matrix view of a block (rule R16), rows and columns,
the key-schedule memory (rule R52), the argument index of an F1 command (rule R122), and which register an offset of the
host window names (rule R81). -/

namespace Sys2Proof.Machine

/-! ### Key sizes (rules R8, R9, R46) -/

/-- Nk, the words of the key (rule R46). -/
def KeySize.nk : KeySize → Nat
  | .k128 => 4
  | .k192 => 6
  | .k256 => 8

/-- Nr, the rounds (rule R46). -/
def KeySize.nr : KeySize → Nat
  | .k128 => 10
  | .k192 => 12
  | .k256 => 14

/-- KSLEN = Nb·(Nr+1) with Nb = 4 (rules R7, R9). -/
def KeySize.kslen (z : KeySize) : Nat := 4 * (z.nr + 1)

/-- The value of the field KSZ (rule R46). -/
def KeySize.bits : KeySize → BitVec 2
  | .k128 => 0b00
  | .k192 => 0b01
  | .k256 => 0b10

/-- The key size a value of the field selects, `none` for the reserved 11 (rule R46). -/
def KeySize.ofBits (v : BitVec 2) : Option KeySize :=
  match v.toNat with
  | 0 => some .k128
  | 1 => some .k192
  | 2 => some .k256
  | _ => none

/-! ### Bytes of a word (rule R15) -/

/-- `byte(w, k) = w[31-8k : 24-8k]`: byte lane `k`, lane 0 the most significant (rule R15). -/
def lane (w : Word) (k : Fin 4) : Byte := w.extractLsb' (24 - 8 * k.val) 8

/-- `word(b0, b1, b2, b3)` (rule R15). -/
def word (b0 b1 b2 b3 : Byte) : Word := b0 ++ b1 ++ b2 ++ b3

/-- The word whose byte lane `k` is `f k`. -/
def wordOf (f : Fin 4 → Byte) : Word := word (f 0) (f 1) (f 2) (f 3)

/-! ### Blocks (rules R16, R43) -/

/-- Column `c` of a block: the word STATE_C[c] (rule R43). -/
def Block.col (b : Block) (c : Fin 4) : Word :=
  match c with
  | 0 => b.c0
  | 1 => b.c1
  | 2 => b.c2
  | 3 => b.c3

/-- The block whose column `c` is `f c`. -/
def Block.ofCols (f : Fin 4 → Word) : Block := ⟨f 0, f 1, f 2, f 3⟩

/-- `s[r][c] = byte(STATE_C[c], r)` (rule R16). -/
def Block.byte (b : Block) (r c : Fin 4) : Byte := lane (b.col c) r

/-- The block whose byte in row `r` and column `c` is `f r c`. -/
def Block.ofMatrix (f : Fin 4 → Fin 4 → Byte) : Block := Block.ofCols fun c => wordOf fun r => f r c

/-- Row `r` of a block as a word: the byte of column `c` in lane `c` (rule R155). -/
def Block.row (b : Block) (r : Fin 4) : Word := wordOf fun c => b.byte r c

/-- The block with column `n` replaced (rule R154). -/
def Block.setCol (b : Block) (n : Fin 4) (w : Word) : Block := Block.ofCols fun c => if c = n then w else b.col c

/-- The block with row `n` replaced: lane `c` of the word goes to column `c` (rule R156). -/
def Block.setRow (b : Block) (n : Fin 4) (w : Word) : Block :=
  Block.ofMatrix fun r c => if r = n then lane w c else b.byte r c

/-- The exclusive-or of two blocks (rules R14, R152). -/
def Block.xor (a b : Block) : Block := Block.ofCols fun c => a.col c ^^^ b.col c

/-- The flat byte `i` of a block is `s[i mod 4][i div 4]` (rules R16, R87, R159). -/
def Block.flat (b : Block) (i : Fin 16) : Byte := b.byte ⟨i.val % 4, by omega⟩ ⟨i.val / 4, by omega⟩

/-- The block whose flat byte `i` is `f i` (rules R87, R159). -/
def Block.ofFlat (f : Fin 16 → Byte) : Block := Block.ofMatrix fun r c => f ⟨4 * c.val + r.val, by omega⟩

/-! ### The key-schedule memory (rule R52) -/

/-- `KS[i]`. No rule reads an index of 60 or more; there the function answers 0 and no meaning uses it. -/
def ksGet (ks : Vector Word 60) (i : Nat) : Word := if h : i < 60 then ks[i] else 0

/-- `KS[i] <- v`. No rule writes an index of 60 or more. -/
def ksSet (ks : Vector Word 60) (i : Nat) (v : Word) : Vector Word 60 := ks.setIfInBounds i v

/-- The round key of round `n`: KS words 4n to 4n+3, word 4n + c as column c (rule R246). -/
def roundKey (ks : Vector Word 60) (n : Fin 15) : Block := Block.ofCols fun c => ksGet ks (4 * n.val + c.val)

/-! ### The argument of an F1 command (rule R122) -/

/-- ARG as an index from 0 to `m`, `none` above `m` (rules R122, R124). -/
def argIndex (m : Nat) (n : BitVec 8) : Option (Fin (m + 1)) :=
  if h : n.toNat ≤ m then some ⟨n.toNat, Nat.lt_succ_of_le h⟩ else none

/-! ### The host window (rule R81) -/

/-- What an offset of the window names (rule R81). -/
inductive Reg where
  | ctrl
  | status
  | cmd
  | id
  | state (c : Fin 4)
  | opb (c : Fin 4)
  | wa
  | wb
  | ks (i : Fin 60)
  | unmapped
deriving DecidableEq, Repr

/-- The address map, for an offset that is a multiple of 4 (rules R81, R85). -/
def regAt (off : BitVec 9) : Reg :=
  let a := off.toNat
  if a = 0x000 then .ctrl
  else if a = 0x004 then .status
  else if a = 0x008 then .cmd
  else if a = 0x00C then .id
  else if h : 0x010 ≤ a ∧ a ≤ 0x01C then .state ⟨(a - 0x010) / 4, by omega⟩
  else if h : 0x020 ≤ a ∧ a ≤ 0x02C then .opb ⟨(a - 0x020) / 4, by omega⟩
  else if a = 0x030 then .wa
  else if a = 0x034 then .wb
  else if h : 0x100 ≤ a ∧ a ≤ 0x1EC then .ks ⟨(a - 0x100) / 4, by omega⟩
  else .unmapped

/-- The offset at which the host reaches a register (rule R81); `none` for `unmapped`, which is no register. -/
def Reg.offset : Reg → Option (BitVec 9)
  | .ctrl => some 0x000
  | .status => some 0x004
  | .cmd => some 0x008
  | .id => some 0x00C
  | .state c => some (BitVec.ofNat 9 (0x010 + 4 * c.val))
  | .opb c => some (BitVec.ofNat 9 (0x020 + 4 * c.val))
  | .wa => some 0x030
  | .wb => some 0x034
  | .ks i => some (BitVec.ofNat 9 (0x100 + 4 * i.val))
  | .unmapped => none

end Sys2Proof.Machine
end

