-- ==== Sys2Proof/Machine/Flags.lean ====
section
/-! DEFINITION. The flags of the engine (they are those of rule R54): the values of CTRL and STATUS as the host reads them (rules R45, R48), BUSY (rule R57), the
completion flag (rule R56) and the interrupt output (rule R295). -/

namespace Sys2Proof.Machine

/-- STATUS.BUSY: a command is in flight (rule R57). -/
def State.busy (s : State) : Bool := s.pend.isSome

/-- The interrupt output `irq = CTRL.IRQEN ∧ (STATUS.DONE ∨ STATUS.ERR)` (rule R295). -/
def State.irq (s : State) : Bool := s.irqEn && (s.done || s.err)

/-- The value of STATUS.ERRCODE for each code (rule R281). -/
def ErrorCode.bits : ErrorCode → BitVec 4
  | .noError => 0
  | .opc => 1
  | .rsvd => 2
  | .range => 3
  | .ksinv => 4
  | .busy => 5
  | .ctrl => 6

/-- CTRL as the host reads it: KSZ in [1:0], IRQEN in [4], the reserved bits 0 (rules R45, R82). -/
def State.ctrlValue (s : State) : Word :=
  (BitVec.ofBool s.irqEn).setWidth 32 <<< 4 ||| s.ksz.bits.setWidth 32

/-- STATUS as the host reads it: BUSY [0], DONE [1], ERR [2], KSV [3], ERRCODE [11:8], the reserved bits 0 (rules R48,
R82). -/
def State.statusValue (s : State) : Word :=
  s.errCode.bits.setWidth 32 <<< 8 ||| (BitVec.ofBool s.ksv).setWidth 32 <<< 3 |||
    (BitVec.ofBool s.err).setWidth 32 <<< 2 ||| (BitVec.ofBool s.done).setWidth 32 <<< 1 |||
    (BitVec.ofBool s.busy).setWidth 32

/-- The end of `EngineComplete`: PEND <- none, so that BUSY reads 0, and DONE <- 1 (rule R56). Every command that completes
ends with it (rule R54). -/
def State.complete (s : State) : State := { s with pend := none, done := true }

end Sys2Proof.Machine
end

