-- ==== Sys2Proof/Machine/Ops.lean ====
section
/-! DEFINITION. The shared operations (the first is rule R283's): recording an error and clearing it, accepting a command
(rule R280), the host's reads and writes (rules R82, R83), reset (rule R320), and the writes the meanings are made of. -/

namespace Sys2Proof.Machine

/-! ### Errors: the one exception of the engine (rules R283, R289, R290) -/

/-- `RecordError(code)`: the first error is kept until the host clears it (rule R283). It is all that an error does: no state is
saved, no mode changes and control goes nowhere (rule R289). -/
def recordError (code : ErrorCode) (s : State) : State :=
  if s.err then s else { s with err := true, errCode := code }

/-- The end of the error state: ERR <- 0 and ERRCODE <- 0 (rules R49, R290). -/
def clearError (s : State) : State := { s with err := false, errCode := .noError }

/-- The code that a word's decode error records (rule R280). -/
def DecodeError.code : DecodeError → ErrorCode
  | .opc => .opc
  | .rsvd => .rsvd
  | .range => .range

/-! ### Writes the meanings are made of -/

/-- STATE <- b (rule R17). -/
def State.setState (s : State) (b : Block) : State := { s with state := b }

/-- WA <- w (rule R17). -/
def State.setWa (s : State) (w : Word) : State := { s with wa := w }

/-- An expansion's end: KS <- ks and KSV <- 1 (rule R216). -/
def State.setSchedule (s : State) (ks : Vector Word 60) : State := { s with ks := ks, ksv := true }

/-- Runs an F1 command of range 0..m on ARG: `f` at the index, then completion (rule R56); an ARG out of the range, which no accepted
command has (rule R280), is a fault. -/
def completeAt (m : Nat) (n : BitVec 8) (f : Fin (m + 1) → State) : Host.Outcome State Fault Refusal :=
  match argIndex m n with
  | some k => .next (f k).complete
  | none => .fault .argOutOfRange

/-! ### Acceptance of a command (rule R280) -/

/-- The checks of rule R280 on a decoded command that read the engine's state: ADDRK's range for the key size in force, then
KSV. -/
def acceptanceError (s : State) : Instr → Option ErrorCode
  | .addrk n => if s.ksz.nr < n.toNat then some .range else if s.ksv then none else some .ksinv
  | .nop | .subb | .isubb | .shrow | .ishrow | .mixcol | .imixcol | .transp | .xorb | .getcol _ | .setcol _
  | .getrow _ | .setrow _ | .xorw | .rotw | .subw | .rcon _ | .expand => none

/-- `Issue(v)`: a write of `v` to CMD while no command is in flight (rule R280). While ERR = 1 it is dropped (rule R284). -/
def issue (v : Word) (s : State) : State :=
  if s.err then s
  else
    match decode v with
    | .error e => recordError (DecodeError.code e) s
    | .ok i =>
      match acceptanceError s i with
      | some code => recordError code s
      | none => { s with pend := some i }

/-! ### Host writes (rule R83) -/

/-- `CtrlWrite(v)` (rules R46, R47, R282). -/
def ctrlWrite (v : Word) (s : State) : State :=
  let t :=
    match KeySize.ofBits (v.extractLsb' 0 2) with
    | none => recordError .ctrl s
    | some z => if z = s.ksz then s else { s with ksz := z, ksv := false }
  { t with irqEn := v.getLsbD 4 }

/-- `StatusWrite(v)`: write 1 to clear DONE and ERR (rule R49). -/
def statusWrite (v : Word) (s : State) : State :=
  let t := if v.getLsbD 1 then { s with done := false } else s
  if v.getLsbD 2 then clearError t else t

/-- A write of `v` to a register, none in flight (the inner case of rule R83, with R49 to R51, R84, R85). -/
def writeReg (r : Reg) (v : Word) (s : State) : State :=
  match r with
  | .ctrl => ctrlWrite v s
  | .status => statusWrite v s
  | .cmd => issue v s
  | .id => s
  | .state c => { s with state := s.state.setCol c v }
  | .opb c => { s with opb := s.opb.setCol c v }
  | .wa => { s with wa := v }
  | .wb => { s with wb := v }
  | .ks i => { s with ks := ksSet s.ks i.val v, ksv := false }
  | .unmapped => s

/-- The registers a write to which is dropped while a command is in flight: all but STATUS, ID and the unmapped offsets
(rules R83, R285). -/
def Reg.lockedWhileBusy : Reg → Bool
  | .ctrl | .cmd | .state _ | .opb _ | .wa | .wb | .ks _ => true
  | .status | .id | .unmapped => false

/-- `HostWrite(off, v)` (rule R83). -/
def hostWrite (off : BitVec 9) (v : Word) (s : State) : State :=
  if s.busy && (regAt off).lockedWhileBusy then recordError .busy s else writeReg (regAt off) v s

/-! ### Host reads (rule R82) -/

/-- The value of ID: "AES" in ASCII and the version byte (rules R3, R50). -/
def idValue : Word := 0x41455301

/-- The value a read returns where it is exact (rule R82). -/
def readReg (r : Reg) (s : State) : Word :=
  match r with
  | .ctrl => s.ctrlValue
  | .status => s.statusValue
  | .cmd => 0
  | .id => idValue
  | .state c => s.state.col c
  | .opb c => s.opb.col c
  | .wa => s.wa
  | .wb => s.wb
  | .ks i => ksGet s.ks i.val
  | .unmapped => 0

/-- The registers whose reads are left open while a command is in flight (rule R91). -/
def Reg.openWhileBusy : Reg → Bool
  | .state _ | .wa | .ks _ => true
  | .ctrl | .status | .cmd | .id | .opb _ | .wb | .unmapped => false

/-- `HostRead(off)` (rules R82, R91): the value goes to `reply`; an open read draws a free value. The engine's state does not
change (rule R90). -/
def hostRead (off : BitVec 9) (s : State) : State :=
  if s.busy && (regAt off).openWhileBusy then
    { s with reply := some (Config.draw32 s.draws), draws := s.draws + 1 }
  else { s with reply := some (readReg (regAt off) s) }

/-! ### Bus accesses and reset -/

/-- bus_size of an access (rule R80). -/
def BusAccess.size : BusAccess → BitVec 2
  | .read _ size => size
  | .write _ size _ => size

/-- bus_addr of an access (rule R80). -/
def BusAccess.offset : BusAccess → BitVec 9
  | .read off _ => off
  | .write off _ _ => off

/-- Why the engine gives an access no meaning: it is not an aligned 32-bit access (rule R86). -/
def BusAccess.refusal (a : BusAccess) : Option Refusal :=
  if a.size ≠ 0b10 then some .subWordAccess
  else if a.offset.extractLsb' 0 2 ≠ 0 then some .misalignedAccess
  else none

/-- One host access (rules R80, R86). -/
def busAccess (a : BusAccess) (s : State) : Host.Outcome State Fault Refusal :=
  match a.refusal with
  | some r => .refused r
  | none =>
    match a with
    | .read off _ => .next (hostRead off s)
    | .write off _ v => .next (hostWrite off v s)

/-- What the access presented while rst is 1 leaves in `reply`: a read returns 0, a write nothing (rule R320). -/
def resetReply : Option BusAccess → Option Word
  | some (.read _ _) => some 0
  | some (.write _ _ _) => none
  | none => none

/-- rst at a clock edge (rule R320): every piece of the engine's state takes its reset value, a command in flight is abandoned and an access
presented with it changes nothing. The host's later events stay. An access that is not aligned and 32 bits wide is refused
here too (rule R86, log 6). -/
def busReset (a : Option BusAccess) (s : State) : Host.Outcome State Fault Refusal :=
  match a.bind BusAccess.refusal with
  | some r => .refused r
  | none => .next { State.reset with events := s.events, reply := resetReply a, draws := s.draws }

/-! ### The window in the host's address space (rules R10, R81) -/

/-- The offset within the engine's window of a host address, `none` outside the window. -/
def windowOffset (addr : Nat) : Option (BitVec 9) :=
  if Config.engineBase ≤ addr ∧ addr < Config.engineBase + 512 then some (BitVec.ofNat 9 (addr - Config.engineBase))
  else none

/-! ### Placing a command (log 7) -/

/-- A word placed as the very next command: a word that is a command becomes PEND and the engine has the next turn; any other word is
written to CMD by the host's next access. -/
def placeCommand (v : Word) (s : State) : State :=
  match decode v with
  | .ok i =>
    { s with
      pend := some i
      events := match s.events with
        | [] => []
        | e :: es => .engine :: e :: es }
  | .error _ => { s with pend := none, events := .host (.write 0x008 0b10 v) :: s.events }

end Sys2Proof.Machine
end

