-- ==== Sys2Proof/Machine/BlockAlgebra.lean ====
section
/-! DEFINITION. The meanings of NOP and the block algebra commands (NOP's rule is R150): rules R150 to R157. Each is the body of `Execute` and the
completion of rule R56; the checks that reject a command are made when it is accepted (`issue`, rule R280). -/

namespace Sys2Proof.Machine

/-- The block with `s[c][r]` in row `r`, column `c` (rule R151). -/
def transpose (b : Block) : Block := Block.ofMatrix fun r c => b.byte c r

/-- NOP: nothing but completion (rule R150). -/
def execNop (s : State) : Host.Outcome State Fault Refusal := .next s.complete

/-- TRANSP: transpose the state matrix (rule R151). -/
def execTransp (s : State) : Host.Outcome State Fault Refusal := .next (s.setState (transpose s.state)).complete

/-- XORB: STATE <- STATE ⊕ OPB (rule R152). -/
def execXorb (s : State) : Host.Outcome State Fault Refusal := .next (s.setState (s.state.xor s.opb)).complete

/-- GETCOL n: WA <- column n (rule R153). -/
def execGetcol (n : BitVec 8) (s : State) : Host.Outcome State Fault Refusal :=
  completeAt 3 n fun k => s.setWa (s.state.col k)

/-- SETCOL n: column n <- WA (rule R154). -/
def execSetcol (n : BitVec 8) (s : State) : Host.Outcome State Fault Refusal :=
  completeAt 3 n fun k => s.setState (s.state.setCol k s.wa)

/-- GETROW n: WA <- row n (rule R155). -/
def execGetrow (n : BitVec 8) (s : State) : Host.Outcome State Fault Refusal :=
  completeAt 3 n fun k => s.setWa (s.state.row k)

/-- SETROW n: row n <- WA (rule R156). -/
def execSetrow (n : BitVec 8) (s : State) : Host.Outcome State Fault Refusal :=
  completeAt 3 n fun k => s.setState (s.state.setRow k s.wa)

/-- XORW: WA <- WA ⊕ WB (rule R157). -/
def execXorw (s : State) : Host.Outcome State Fault Refusal := .next (s.setWa (s.wa ^^^ s.wb)).complete

end Sys2Proof.Machine
end

