-- ==== Sys2Proof/Machine/KeySchedule.lean ====
section
/-! DEFINITION. The meanings of the key schedule commands (the first is rule R213's): ROTW, SUBW, RCON and EXPAND, rules R210 to R217. -/

namespace Sys2Proof.Machine

/-- `RotWord`: bytes (a0, a1, a2, a3) become (a1, a2, a3, a0) (rule R211). -/
def rotWord (w : Word) : Word := word (lane w 1) (lane w 2) (lane w 3) (lane w 0)

/-- `SubWord`: each byte through S (rule R212). -/
def subWord (w : Word) : Word := wordOf fun k => sBox (lane w k)

/-- What the expansion exclusive-ors with word i - Nk, given word i - 1: the three branches of rule R217 (their indices are rule R218's). -/
def expandTemp (z : KeySize) (i : Nat) (prev : Word) : Word :=
  if i % z.nk = 0 then subWord (rotWord prev) ^^^ rconWord (i / z.nk)
  else if 6 < z.nk ∧ i % z.nk = 4 then subWord prev
  else prev

/-- `n` words of the expansion from index `i` on, in place (rule R217). -/
def expandFrom (z : KeySize) : Nat → Nat → Vector Word 60 → Vector Word 60
  | 0, _, ks => ks
  | n + 1, i, ks =>
    expandFrom z n (i + 1) (ksSet ks i (ksGet ks (i - z.nk) ^^^ expandTemp z i (ksGet ks (i - 1))))

/-- `KeyExpansion` of the key in KS[0..Nk-1] into KS[Nk..KSLEN-1] (rules R216, R217); the other words keep their values. -/
def keyExpansion (z : KeySize) (ks : Vector Word 60) : Vector Word 60 := expandFrom z (z.kslen - z.nk) z.nk ks

/-- ROTW: WA <- RotWord(WA) (rule R213). -/
def execRotw (s : State) : Host.Outcome State Fault Refusal := .next (s.setWa (rotWord s.wa)).complete

/-- SUBW: WA <- SubWord(WA) (rule R214). -/
def execSubw (s : State) : Host.Outcome State Fault Refusal := .next (s.setWa (subWord s.wa)).complete

/-- RCON n: WA <- WA ⊕ Rcon(n) (rule R215). -/
def execRcon (n : BitVec 8) (s : State) : Host.Outcome State Fault Refusal :=
  completeAt 10 n fun k => s.setWa (s.wa ^^^ rconWord k.val)

/-- EXPAND: expand the key under the key size in force, and KSV <- 1 (rule R216). -/
def execExpand (s : State) : Host.Outcome State Fault Refusal :=
  .next (s.setSchedule (keyExpansion s.ksz s.ks)).complete

end Sys2Proof.Machine
end

