-- ==== Sys2Proof/Machine/RoundTransform.lean ====
section
/-! DEFINITION. The meanings of the round transform commands (the first is rule R240's): SUBB, ISUBB, SHROW, ISHROW, MIXCOL, IMIXCOL and ADDRK,
rules R240 to R247. Row and column indices are `Fin 4`, whose sum and difference are taken mod 4. -/

namespace Sys2Proof.Machine

/-- Every byte through S (rule R240). -/
def subBytes (b : Block) : Block := Block.ofMatrix fun r c => sBox (b.byte r c)

/-- Every byte through InvS (rule R241). -/
def invSubBytes (b : Block) : Block := Block.ofMatrix fun r c => invSBox (b.byte r c)

/-- Row r rotated left by r: `t[r][c] = s[r][(c + r) mod 4]` (rule R242). -/
def shiftRows (b : Block) : Block := Block.ofMatrix fun r c => b.byte r (c + r)

/-- Row r rotated right by r: `t[r][(c + r) mod 4] = s[r][c]` (rule R243), read at column c. -/
def invShiftRows (b : Block) : Block := Block.ofMatrix fun r c => b.byte r (c - r)

/-- One column through the matrix M (rules R244, R247). -/
def mixColumn (w : Word) : Word :=
  let a0 := lane w 0
  let a1 := lane w 1
  let a2 := lane w 2
  let a3 := lane w 3
  word (xtime a0 ^^^ mul03 a1 ^^^ a2 ^^^ a3)
    (a0 ^^^ xtime a1 ^^^ mul03 a2 ^^^ a3)
    (a0 ^^^ a1 ^^^ xtime a2 ^^^ mul03 a3)
    (mul03 a0 ^^^ a1 ^^^ a2 ^^^ xtime a3)

/-- One column through the matrix M⁻¹ (rules R245, R247). -/
def invMixColumn (w : Word) : Word :=
  let a0 := lane w 0
  let a1 := lane w 1
  let a2 := lane w 2
  let a3 := lane w 3
  word (mul0e a0 ^^^ mul0b a1 ^^^ mul0d a2 ^^^ mul09 a3)
    (mul09 a0 ^^^ mul0e a1 ^^^ mul0b a2 ^^^ mul0d a3)
    (mul0d a0 ^^^ mul09 a1 ^^^ mul0e a2 ^^^ mul0b a3)
    (mul0b a0 ^^^ mul0d a1 ^^^ mul09 a2 ^^^ mul0e a3)

/-- Every column through M (rule R244). -/
def mixColumns (b : Block) : Block := Block.ofCols fun c => mixColumn (b.col c)

/-- Every column through M⁻¹ (rule R245). -/
def invMixColumns (b : Block) : Block := Block.ofCols fun c => invMixColumn (b.col c)

/-- SUBB, substitute-bytes (rule R240). -/
def execSubb (s : State) : Host.Outcome State Fault Refusal := .next (s.setState (subBytes s.state)).complete

/-- ISUBB, inverse substitute-bytes (rule R241). -/
def execIsubb (s : State) : Host.Outcome State Fault Refusal := .next (s.setState (invSubBytes s.state)).complete

/-- SHROW, shift-rows (rule R242). -/
def execShrow (s : State) : Host.Outcome State Fault Refusal := .next (s.setState (shiftRows s.state)).complete

/-- ISHROW, inverse shift-rows (rule R243). -/
def execIshrow (s : State) : Host.Outcome State Fault Refusal := .next (s.setState (invShiftRows s.state)).complete

/-- MIXCOL, mix-columns (rule R244). -/
def execMixcol (s : State) : Host.Outcome State Fault Refusal := .next (s.setState (mixColumns s.state)).complete

/-- IMIXCOL, inverse mix-columns (rule R245). -/
def execImixcol (s : State) : Host.Outcome State Fault Refusal := .next (s.setState (invMixColumns s.state)).complete

/-- ADDRK n: STATE <- STATE ⊕ the round key of round n, read now, when the command completes (rule R246). The range for the key
size in force and KSV were checked when the command was accepted (rule R280). -/
def execAddrk (n : BitVec 8) (s : State) : Host.Outcome State Fault Refusal :=
  completeAt 14 n fun k => s.setState (s.state.xor (roundKey s.ks k))

end Sys2Proof.Machine
end

