-- ==== Sys2Proof/Machine/Dispatch.lean ====
section
/-! DEFINITION. `exec`: the completion of a command in flight (rule R56), one arm for each command of the opcode map (rule R124). -/

namespace Sys2Proof.Machine

def exec (i : Instr) (s : State) : Host.Outcome State Fault Refusal :=
  match i with
  | .nop => Sys2Proof.Machine.execNop s
  | .subb => Sys2Proof.Machine.execSubb s
  | .isubb => Sys2Proof.Machine.execIsubb s
  | .shrow => Sys2Proof.Machine.execShrow s
  | .ishrow => Sys2Proof.Machine.execIshrow s
  | .mixcol => Sys2Proof.Machine.execMixcol s
  | .imixcol => Sys2Proof.Machine.execImixcol s
  | .addrk n => Sys2Proof.Machine.execAddrk n s
  | .transp => Sys2Proof.Machine.execTransp s
  | .xorb => Sys2Proof.Machine.execXorb s
  | .getcol n => Sys2Proof.Machine.execGetcol n s
  | .setcol n => Sys2Proof.Machine.execSetcol n s
  | .getrow n => Sys2Proof.Machine.execGetrow n s
  | .setrow n => Sys2Proof.Machine.execSetrow n s
  | .xorw => Sys2Proof.Machine.execXorw s
  | .rotw => Sys2Proof.Machine.execRotw s
  | .subw => Sys2Proof.Machine.execSubw s
  | .rcon n => Sys2Proof.Machine.execRcon n s
  | .expand => Sys2Proof.Machine.execExpand s

end Sys2Proof.Machine
end

