-- ==== Sys2Proof/Machine/Engine.lean ====
section
/-! DEFINITION. The engine's turn (the step of rule R56) and what one event does. -/

namespace Sys2Proof.Machine

/-- The engine's only step (rule R56): it completes the command in flight. With none in flight it does nothing on its own (rule
R322). -/
def engineTurn (s : State) : Host.Outcome State Fault Refusal :=
  match s.pend with
  | some i => exec i s
  | none => .next s

/-- One event: a host access (rules R82, R83), the engine's turn (rule R56) or a reset (rule R320). -/
def handle (e : Event) (s : State) : Host.Outcome State Fault Refusal :=
  match e with
  | .host a => busAccess a s
  | .engine => engineTurn s
  | .reset a => busReset a s

end Sys2Proof.Machine
end

