-- ==== Sys2Proof/Machine/Step.lean ====
section
/-! DEFINITION. One step of the machine (its agents are those of rule R20), and the placing of a command where the next step runs it. -/

namespace Sys2Proof.Machine

/-- One step: the first event still to come, or, where none is left, the engine's turn. So a command in flight is completed at
some step of every run that does not stop (the weak fairness of rule R56), and any number of host events may fall before it. -/
def step (s : State) : Host.Outcome State Fault Refusal :=
  match s.events with
  | [] => engineTurn s
  | e :: es => handle e { s with events := es }

/-- The state with a row's word placed as the very next command (log 7): the engine has no program counter and fetches nothing
(rule R41), so a word that is a command is put in PEND, where an accepted CMD write puts it (rule R55). -/
def State.withFetchWord (s : State) (nbits w : Nat) : State := placeCommand (tableWord nbits w) s

end Sys2Proof.Machine
end

