-- ==== Sys2Proof/Machine/HostProgram.lean ====
section
/-! DEFINITION. The host's side (its notation is that of rule R129): the accesses that make up its statements and pseudo-instructions (rules R129, R130) and the
cipher as sequences of commands (rules R270, R271). It is host software: no step reads it; it says which events a host puts before the
engine. -/

namespace Sys2Proof.Machine

/-! ### Host statements as events (rules R129, R130) -/

/-- `WR <off>, <v>` (rule R129). -/
def hostWR (off : BitVec 9) (v : Word) : List Event := [.host (.write off 0b10 v)]

/-- `RD <off>` (rule R129). -/
def hostRD (off : BitVec 9) : List Event := [.host (.read off 0b10)]

/-- `WAIT` (rule R129) where `polls` reads of STATUS find BUSY = 1 before the engine's turn, and the read after it finds BUSY = 0. -/
def hostWAIT (polls : Nat) : List Event :=
  (List.replicate polls (hostRD 0x004)).flatten ++ [.engine] ++ hostRD 0x004

/-- `C <command>` (rule R129). -/
def hostC (polls : Nat) (i : Instr) : List Event := hostWR 0x008 (encode i) ++ hostWAIT polls

/-- `LDS <16 bytes>`: the block's columns to STATE_C0..C3 (rules R87, R129). -/
def hostLDS (b : Block) : List Event :=
  hostWR 0x010 b.c0 ++ hostWR 0x014 b.c1 ++ hostWR 0x018 b.c2 ++ hostWR 0x01C b.c3

/-- The key words to KS from index `i` on. -/
def loadWords : Nat → List Word → List Event
  | _, [] => []
  | i, w :: ws => hostWR (BitVec.ofNat 9 (0x100 + 4 * i)) w ++ loadWords (i + 1) ws

/-- `LDK <4·Nk bytes>`: the key words to KS[0..Nk-1] (rules R52, R129). -/
def hostLDK (key : List Word) : List Event := loadWords 0 key

/-- `CLRST`: clear DONE and ERR (rule R130). -/
def hostCLRST : List Event := hostWR 0x004 0x6

/-- The set-up before the first ADDRK: reset, the key size and IRQEN, the key, EXPAND (rule R323). -/
def hostSetUp (polls : Nat) (z : KeySize) (irqEn : Bool) (key : List Word) : List Event :=
  [.reset none] ++ hostWR 0x000 ((BitVec.ofBool irqEn).setWidth 32 <<< 4 ||| z.bits.setWidth 32) ++ hostLDK key ++
    hostC polls .expand

/-! ### Pseudo-instructions as commands (rule R130) -/

/-- `ROUND r` (rule R130). -/
def roundCommands (r : Nat) : List Instr := [.subb, .shrow, .mixcol, .addrk (BitVec.ofNat 8 r)]

/-- `FINAL r` (rule R130): no MixColumns. -/
def finalCommands (r : Nat) : List Instr := [.subb, .shrow, .addrk (BitVec.ofNat 8 r)]

/-- `IROUND r` (rule R130). -/
def inverseRoundCommands (r : Nat) : List Instr := [.ishrow, .isubb, .addrk (BitVec.ofNat 8 r), .imixcol]

/-- `IFINAL` (rule R130). -/
def inverseFinalCommands : List Instr := [.ishrow, .isubb, .addrk 0]

/-- `KEYSTEP` (rule R130). -/
def keyStepCommands : List Instr := [.rotw, .subw]

/-! ### The cipher (rules R270, R271) -/

/-- `ROUND 1` to `ROUND n`, in order (rule R270). -/
def forwardRounds : Nat → List Instr
  | 0 => []
  | n + 1 => forwardRounds n ++ roundCommands (n + 1)

/-- `IROUND n` down to `IROUND 1` (rule R271). -/
def inverseRounds : Nat → List Instr
  | 0 => []
  | n + 1 => inverseRoundCommands (n + 1) ++ inverseRounds n

/-- The forward cipher, 4·Nr commands (rule R270). -/
def forwardCipher (z : KeySize) : List Instr := [.addrk 0] ++ forwardRounds (z.nr - 1) ++ finalCommands z.nr

/-- The inverse cipher, 4·Nr commands (rule R271). -/
def inverseCipher (z : KeySize) : List Instr :=
  [.addrk (BitVec.ofNat 8 z.nr)] ++ inverseRounds (z.nr - 1) ++ inverseFinalCommands

/-! ### What a command does from its CMD write to its completion -/

/-- `C <command>` seen from the engine, none in flight before: the CMD write (rule R280), then the engine's turn (rule R56). -/
def runCommand (i : Instr) (s : State) : Host.Outcome State Fault Refusal := engineTurn (issue (encode i) s)

/-- `C` of each command of a list, in order. -/
def runCommands : List Instr → State → Host.Outcome State Fault Refusal
  | [], s => .next s
  | i :: is, s =>
    match runCommand i s with
    | .next t => runCommands is t
    | .fault f => .fault f
    | .refused r => .refused r

/-- `C` of each command of a list takes `s` to `t` with every command accepted and completed: none is in flight at each CMD write, the
write makes the command PEND and does nothing else (rule R280: no write is dropped, no error recorded), and the engine's turn
completes it (rule R56). -/
def AcceptedRun : List Instr → State → State → Prop
  | [], s, t => t = s
  | i :: is, s, t =>
    s.pend = none ∧ hostWrite 0x008 (encode i) s = { s with pend := some i } ∧
      ∃ u, engineTurn { s with pend := some i } = .next u ∧ AcceptedRun is u t

end Sys2Proof.Machine
end

