-- ==== Sys2Proof/Safety.lean ====
section
/-! DEFINITION. What counts as a safe run (the invariant rests on rules R48, R55 and R281), in the terms the statements use. -/

namespace Sys2Proof.Machine

/-- ERR and ERRCODE tell the same story: ERR = 0 exactly when ERRCODE = 0 (rules R49, R281, R283). -/
def State.ErrorConsistent (s : State) : Prop := s.err = false ↔ s.errCode = .noError

/-- The command in flight, if any, is one that the checks of rule R280 let in: ARG in range, and for ADDRK the schedule valid
(rule R55). -/
def State.PendAccepted (s : State) : Prop :=
  ∀ i, s.pend = some i → i.wellFormed = true ∧ acceptanceError s i = none

/-- While KSV = 1, KS[0..KSLEN-1] is the expansion of KS[0..Nk-1] under the key size in force (rule R48). -/
def State.ScheduleValid (s : State) : Prop := s.ksv = true → keyExpansion s.ksz s.ks = s.ks

/-- The invariant of the engine: what every step keeps and reset has. -/
structure State.Inv (s : State) : Prop where
  errorConsistent : s.ErrorConsistent
  pendAccepted : s.PendAccepted
  scheduleValid : s.ScheduleValid

/-- An access the engine defines: aligned and 32 bits wide (rule R86). -/
def BusAccess.Defined (a : BusAccess) : Prop := a.refusal = none

/-- The next event, if it presents a host access, presents a defined one (what the host owes the engine, rule R86). -/
def State.NextAccessDefined (s : State) : Prop :=
  match s.events with
  | .host a :: _ => a.Defined
  | .reset (some a) :: _ => a.Defined
  | .reset none :: _ => True
  | .engine :: _ => True
  | [] => True

/-- It is the engine's turn: no event is left, or the next event is the engine's turn (rule R56). -/
def State.EngineNext (s : State) : Prop := s.events.head? = none ∨ s.events.head? = some .engine

/-- `t` and `s` agree on the engine's architectural state, the twelve fields of rule R40. -/
def SameEngine (t s : State) : Prop :=
  t.ksz = s.ksz ∧ t.irqEn = s.irqEn ∧ t.done = s.done ∧ t.err = s.err ∧ t.errCode = s.errCode ∧ t.ksv = s.ksv ∧
    t.state = s.state ∧ t.opb = s.opb ∧ t.wa = s.wa ∧ t.wb = s.wb ∧ t.ks = s.ks ∧ t.pend = s.pend

/-- From every state, command `j` after command `i` gives STATE back its value (rule R248). -/
def Undoes (j i : Instr) : Prop :=
  ∀ s, ∃ t u, exec i s = .next t ∧ exec j t = .next u ∧ u.state = s.state

/-- From every state, commands `i` and `j` give the same in either order (rule R248). -/
def CommandsCommute (i j : Instr) : Prop :=
  ∀ s, ∃ t t' u, exec i s = .next t ∧ exec j t = .next u ∧ exec j s = .next t' ∧ exec i t' = .next u

end Sys2Proof.Machine
end

