-- ==== Sys2Proof/Certificates/Slice0/Obligations.lean ====
section
/-! DEFINITION. The statements for the provers (from the spec's numbered rules, file by file). -/

open Sys2Proof Sys2Proof.Machine

/-! ### Encoding (30_encoding.md) -/

/-- O1: decoding the word of a well-formed command gives the command back, at every argument in range (R121, R124). -/
def Obligations.DecodeOfEncode : Prop := ∀ i : Instr, i.wellFormed = true → decode (encode i) = .ok i

/-- O2: a word that decodes is the one word of its command, which is well formed: no other word means it (R121, R122, R125: no
aliases). -/
def Obligations.EncodeOfDecode : Prop :=
  ∀ (v : Word) (i : Instr), decode v = .ok i → encode i = v ∧ i.wellFormed = true

/-- O3: the encoded words of rule R127. -/
def Obligations.EncodedWordsOfTheTable : Prop :=
  ∀ p ∈
    ([(.nop, 0x00000000), (.subb, 0x00000001), (.isubb, 0x00000002), (.shrow, 0x00000003), (.ishrow, 0x00000004),
      (.mixcol, 0x00000005), (.imixcol, 0x00000006), (.addrk 0, 0x00000007), (.addrk 10, 0x00000A07),
      (.addrk 12, 0x00000C07), (.addrk 14, 0x00000E07), (.transp, 0x00000010), (.xorb, 0x00000011),
      (.getcol 0, 0x00000012), (.getcol 3, 0x00000312)] ++
    [(.setcol 0, 0x00000013), (.setcol 3, 0x00000313), (.getrow 0, 0x00000014), (.getrow 3, 0x00000314),
      (.setrow 0, 0x00000015), (.setrow 3, 0x00000315), (.xorw, 0x00000016), (.rotw, 0x00000020),
      (.subw, 0x00000021), (.rcon 0, 0x00000022), (.rcon 1, 0x00000122), (.rcon 10, 0x00000A22),
      (.expand, 0x00000030)] : List (Instr × Word)),
    encode p.1 = p.2 ∧ decode p.2 = .ok p.1

/-- O4: the reserved OPC values of rule R125 are exactly those the decoder refuses as such, whatever ARG and RSVD, and a write of one to
CMD executes nothing and changes nothing but the error record (which keeps a first error). -/
def Obligations.ReservedOpcodesRecordEOpc : Prop :=
  ∀ v : Word,
    let opc := (v.extractLsb' 0 8).toNat
    let reserved :=
      (0x08 ≤ opc ∧ opc ≤ 0x0F) ∨ (0x17 ≤ opc ∧ opc ≤ 0x1F) ∨ (0x23 ≤ opc ∧ opc ≤ 0x2F) ∨ (0x31 ≤ opc ∧ opc ≤ 0xFF)
    (reserved ↔ decode v = .error .opc) ∧
    (reserved → ∀ s : State, s.pend = none →
      hostWrite 0x008 v s = if s.err then s else { s with err := true, errCode := .opc })

/-! ### Acceptance and errors (60_exceptions.md) -/

/-- O5: a write to CMD with no command in flight makes the checks of rule R280 in its order, on the word's bits; the first that fails is
recorded and nothing else changes; a word that passes all becomes PEND. -/
def Obligations.CommandAcceptance : Prop :=
  ∀ (v : Word) (s : State), s.pend = none →
    let opc := v.extractLsb' 0 8
    let n := v.extractLsb' 8 8
    let f0 : List (BitVec 8) :=
      [0x00, 0x01, 0x02, 0x03, 0x04, 0x05, 0x06, 0x10, 0x11, 0x16, 0x20, 0x21, 0x30]
    let f1 : List (BitVec 8) := [0x07, 0x12, 0x13, 0x14, 0x15, 0x22]
    let nr := match s.ksz with
      | .k128 => 10
      | .k192 => 12
      | .k256 => 14
    let maxarg := if opc = 0x07 then nr else if opc = 0x22 then 10 else 3
    let raise := fun code : ErrorCode => { s with err := true, errCode := code }
    hostWrite 0x008 v s =
      if s.err then s
      else if opc ∉ f0 ∧ opc ∉ f1 then raise .opc
      else if v.extractLsb' 16 16 ≠ 0 then raise .rsvd
      else if opc ∈ f0 ∧ n ≠ 0 then raise .rsvd
      else if opc ∈ f1 ∧ maxarg < n.toNat then raise .range
      else if opc = 0x07 ∧ s.ksv = false then raise .ksinv
      else { s with pend := opcodeMap opc n }

/-- O6: a command whose ARG is in range, ADDRK with its round within Nr and a valid schedule, is accepted from an idle engine without
error: it becomes PEND and nothing else changes (R280, R55, R246). -/
def Obligations.GoodCommandIsAccepted : Prop :=
  ∀ (i : Instr) (s : State), i.wellFormed = true → s.pend = none → s.err = false →
    (∀ n, i = .addrk n → n.toNat ≤ s.ksz.nr ∧ s.ksv = true) →
    hostWrite 0x008 (encode i) s = { s with pend := some i }

/-- O7: the examples of rule R287: which of several errors one word records, from a clear STATUS, KSZ = 00 and KSV = 0. -/
def Obligations.ErrorPriorityExamples : Prop :=
  ∀ s : State, s.pend = none → s.err = false → s.ksz = .k128 → s.ksv = false →
    (hostWrite 0x008 0x00FF0008 s).errCode = .opc ∧ (hostWrite 0x008 0x00010B07 s).errCode = .rsvd ∧
    (hostWrite 0x008 0x00000B07 s).errCode = .range ∧ (hostWrite 0x008 0x00000A07 s).errCode = .ksinv

/-- O8: RecordError (R283) keeps the first error, and only a STATUS write with bit 2 set or a reset clears ERR and ERRCODE: no command, no
engine step and no other access does. -/
def Obligations.FirstErrorIsKept : Prop :=
  (∀ (code : ErrorCode) (s : State),
    (s.err = false → recordError code s = { s with err := true, errCode := code }) ∧
    (s.err = true → recordError code s = s)) ∧
  ∀ s t : State, step s = .next t → s.err = true →
    (t.err = true ∧ t.errCode = s.errCode) ∨
    (∃ v es, s.events = .host (.write 0x004 0b10 v) :: es ∧ v.getLsbD 2 = true ∧ t.err = false ∧ t.errCode = .noError) ∨
    (∃ a es, s.events = .reset a :: es ∧ t.err = false ∧ t.errCode = .noError)

/-- O9: while ERR = 1 a CMD write made with none in flight changes nothing; writes to the other registers are not blocked (R284). -/
def Obligations.ErrorDropsCommandsOnly : Prop :=
  ∀ (s : State) (v : Word), s.err = true → s.pend = none →
    hostWrite 0x008 v s = s ∧
    (∀ c : Fin 4,
      hostWrite (BitVec.ofNat 9 (0x010 + 4 * c.val)) v s = { s with state := s.state.setCol c v } ∧
      hostWrite (BitVec.ofNat 9 (0x020 + 4 * c.val)) v s = { s with opb := s.opb.setCol c v }) ∧
    hostWrite 0x030 v s = { s with wa := v } ∧ hostWrite 0x034 v s = { s with wb := v } ∧
    (∀ i : Fin 60,
      hostWrite (BitVec.ofNat 9 (0x100 + 4 * i.val)) v s = { s with ks := ksSet s.ks i.val v, ksv := false }) ∧
    (hostWrite 0x000 v s).irqEn = v.getLsbD 4 ∧
    (v.extractLsb' 0 2 ≠ 3 → (hostWrite 0x000 v s).ksz.bits = v.extractLsb' 0 2) ∧
    (v.getLsbD 2 = true → (hostWrite 0x004 v s).err = false)

/-- O10: while a command is in flight, a write to CTRL, CMD, STATE, OPB, WA, WB or KS changes nothing but the error record, E_BUSY if it
is the first; the command completes as it would have, setting DONE; a write to STATUS keeps its effect and records nothing, and one to ID or
an unmapped offset does nothing (R285). -/
def Obligations.BusyWritesAreDropped : Prop :=
  ∀ (s : State) (i : Instr) (off : BitVec 9) (v : Word), s.pend = some i → off.toNat % 4 = 0 →
    let a := off.toNat
    ((a = 0x000 ∨ a = 0x008 ∨ (0x010 ≤ a ∧ a ≤ 0x034) ∨ (0x100 ≤ a ∧ a ≤ 0x1EC)) →
      (hostWrite off v s = if s.err then s else { s with err := true, errCode := .busy }) ∧
      ∀ t, engineTurn s = .next t →
        t.done = true ∧
        engineTurn (hostWrite off v s) =
          .next { t with err := true, errCode := if s.err then s.errCode else .busy }) ∧
    (a = 0x004 →
      hostWrite off v s = { s with
        done := s.done && !v.getLsbD 1
        err := s.err && !v.getLsbD 2
        errCode := if v.getLsbD 2 then .noError else s.errCode }) ∧
    ((a = 0x00C ∨ (0x038 ≤ a ∧ a ≤ 0x0FC) ∨ 0x1F0 ≤ a) → hostWrite off v s = s)

/-- O11: CtrlWrite (R282) with R46 and R47: IRQEN always takes bit 4; KSZ takes bits [1:0] unless they are 11, which records E_CTRL; KSV
falls exactly when KSZ changes; ERR = 1 does not drop the write and a command in flight does. -/
def Obligations.CtrlWriteEffect : Prop :=
  ∀ (s : State) (v : Word),
    (s.pend = none →
      ∃ t, hostWrite 0x000 v s = t ∧ t.irqEn = v.getLsbD 4 ∧
        (v.extractLsb' 0 2 = 3 →
          t.ksz = s.ksz ∧ t.ksv = s.ksv ∧ t.err = true ∧ t.errCode = if s.err then s.errCode else .ctrl) ∧
        (v.extractLsb' 0 2 ≠ 3 →
          t.ksz.bits = v.extractLsb' 0 2 ∧ t.ksv = (s.ksv && decide (v.extractLsb' 0 2 = s.ksz.bits)) ∧
            t.err = s.err ∧ t.errCode = s.errCode) ∧
        t = { s with ksz := t.ksz, irqEn := t.irqEn, ksv := t.ksv, err := t.err, errCode := t.errCode }) ∧
    (s.pend ≠ none → hostWrite 0x000 v s = if s.err then s else { s with err := true, errCode := .busy })

/-- O12: a STATUS write (R49) clears DONE by bit 1 and ERR with ERRCODE by bit 2, ignores every other bit, is accepted in flight or not and
records no error. -/
def Obligations.StatusWriteEffect : Prop :=
  ∀ (s : State) (v : Word),
    hostWrite 0x004 v s = { s with
      done := s.done && !v.getLsbD 1
      err := s.err && !v.getLsbD 2
      errCode := if v.getLsbD 2 then .noError else s.errCode }

/-- O13: the interrupt output (R295): the level of IRQEN and (DONE or ERR) as the host reads them; it is 1 after a command completes or an
error is recorded with IRQEN = 1, or when IRQEN is set while DONE or ERR is 1, and 0 after DONE and ERR are cleared, IRQEN is
cleared, or a reset. -/
def Obligations.InterruptLevel : Prop :=
  ∀ s : State,
    (s.irq = (s.ctrlValue.getLsbD 4 && (s.statusValue.getLsbD 1 || s.statusValue.getLsbD 2))) ∧
    (∀ i t, exec i s = .next t → s.irqEn = true → t.irq = true) ∧
    (∀ code, s.irqEn = true → (recordError code s).irq = true) ∧
    (∀ v, s.pend = none → s.done = true ∨ s.err = true → v.getLsbD 4 = true → (hostWrite 0x000 v s).irq = true) ∧
    (∀ v, v.getLsbD 1 = true → v.getLsbD 2 = true → (hostWrite 0x004 v s).irq = false) ∧
    (∀ v, s.pend = none → v.getLsbD 4 = false → (hostWrite 0x000 v s).irq = false) ∧
    (∀ a t, busReset a s = .next t → t.irq = false)

/-! ### The host window (20_memory.md, 10_state.md) -/

/-- O14: CTRL and STATUS read as the field tables of R45 and R48 say, the reserved bits 0, whatever the state; the numbers of the error
codes are those of R281, and KSZ, Nk, Nr and KSLEN of each key size those of R46. -/
def Obligations.CtrlAndStatusFields : Prop :=
  (∀ s : State,
    (∃ x, (hostRead 0x000 s).reply = some x ∧ x.extractLsb' 0 2 = s.ksz.bits ∧ x.extractLsb' 2 2 = 0 ∧
      x.getLsbD 4 = s.irqEn ∧ x.extractLsb' 5 27 = 0) ∧
    (∃ x, (hostRead 0x004 s).reply = some x ∧ x.getLsbD 0 = s.pend.isSome ∧ x.getLsbD 1 = s.done ∧
      x.getLsbD 2 = s.err ∧ x.getLsbD 3 = s.ksv ∧ x.extractLsb' 4 4 = 0 ∧ x.extractLsb' 8 4 = s.errCode.bits ∧
      x.extractLsb' 12 20 = 0)) ∧
  (ErrorCode.noError.bits = 0 ∧ ErrorCode.opc.bits = 1 ∧ ErrorCode.rsvd.bits = 2 ∧ ErrorCode.range.bits = 3 ∧
    ErrorCode.ksinv.bits = 4 ∧ ErrorCode.busy.bits = 5 ∧ ErrorCode.ctrl.bits = 6) ∧
  (KeySize.k128.bits = 0b00 ∧ KeySize.k128.nk = 4 ∧ KeySize.k128.nr = 10 ∧ KeySize.k128.kslen = 44) ∧
  (KeySize.k192.bits = 0b01 ∧ KeySize.k192.nk = 6 ∧ KeySize.k192.nr = 12 ∧ KeySize.k192.kslen = 52) ∧
  (KeySize.k256.bits = 0b10 ∧ KeySize.k256.nk = 8 ∧ KeySize.k256.nr = 14 ∧ KeySize.k256.kslen = 60)

/-- O15: HostRead in full (R82): the value at every aligned offset, a value left open for STATE, WA and KS while a command is in flight
(nothing is said of it), and no change of the engine's state or of the events to come. -/
def Obligations.HostReadInFull : Prop :=
  ∀ (off : BitVec 9) (s : State), off.toNat % 4 = 0 →
    ∃ x, (hostRead off s).reply = some x ∧ SameEngine (hostRead off s) s ∧ (hostRead off s).events = s.events ∧
      let a := off.toNat
      (a = 0x000 → x = (BitVec.ofBool s.irqEn).setWidth 32 <<< 4 ||| s.ksz.bits.setWidth 32) ∧
      (a = 0x004 → x = s.errCode.bits.setWidth 32 <<< 8 ||| (BitVec.ofBool s.ksv).setWidth 32 <<< 3 |||
        (BitVec.ofBool s.err).setWidth 32 <<< 2 ||| (BitVec.ofBool s.done).setWidth 32 <<< 1 |||
        (BitVec.ofBool s.pend.isSome).setWidth 32) ∧
      (a = 0x008 → x = 0) ∧
      (a = 0x00C → x = 0x41455301) ∧
      (∀ c : Fin 4, a = 0x010 + 4 * c.val → s.pend = none → x = s.state.col c) ∧
      (∀ c : Fin 4, a = 0x020 + 4 * c.val → x = s.opb.col c) ∧
      (a = 0x030 → s.pend = none → x = s.wa) ∧
      (a = 0x034 → x = s.wb) ∧
      (∀ i : Fin 60, a = 0x100 + 4 * i.val → s.pend = none → x = ksGet s.ks i.val) ∧
      ((0x038 ≤ a ∧ a ≤ 0x0FC) ∨ 0x1F0 ≤ a → x = 0)

/-- O16: a write to a column of STATE or OPB, to WA or to WB, none in flight, stores the word there and changes nothing else (R83). -/
def Obligations.DataRegisterWrites : Prop :=
  ∀ (s : State) (v : Word), s.pend = none →
    (∀ c : Fin 4, ∃ b, hostWrite (BitVec.ofNat 9 (0x010 + 4 * c.val)) v s = { s with state := b } ∧
      ∀ d, b.col d = if d = c then v else s.state.col d) ∧
    (∀ c : Fin 4, ∃ b, hostWrite (BitVec.ofNat 9 (0x020 + 4 * c.val)) v s = { s with opb := b } ∧
      ∀ d, b.col d = if d = c then v else s.opb.col d) ∧
    hostWrite 0x030 v s = { s with wa := v } ∧
    hostWrite 0x034 v s = { s with wb := v }

/-- O17: a write to KS[i] that is not dropped stores the word at i alone and clears KSV, for every i and every value (R84). -/
def Obligations.KeyScheduleWrite : Prop :=
  ∀ (s : State) (i : Fin 60) (v : Word), s.pend = none →
    ∃ k, hostWrite (BitVec.ofNat 9 (0x100 + 4 * i.val)) v s = { s with ks := k, ksv := false } ∧
      ∀ j : Fin 60, ksGet k j.val = if j = i then v else ksGet s.ks j.val

/-- O18: an unmapped offset reads 0 and ignores writes, in flight or not, and records no error (R85). -/
def Obligations.UnmappedOffsets : Prop :=
  ∀ (off : BitVec 9) (s : State) (v : Word), off.toNat % 4 = 0 →
    (0x038 ≤ off.toNat ∧ off.toNat ≤ 0x0FC) ∨ 0x1F0 ≤ off.toNat →
    (hostRead off s).reply = some 0 ∧ SameEngine (hostRead off s) s ∧ hostWrite off v s = s

/-- O19: ID always reads 0x41455301, and a write to it is ignored and records no error (R50). -/
def Obligations.IdIsConstant : Prop :=
  ∀ (s : State) (v : Word), (hostRead 0x00C s).reply = some 0x41455301 ∧ hostWrite 0x00C v s = s

/-- O20: a step on a host access (R86): refused if it is not an aligned 32-bit access, else the read or the write of R82, R83. -/
def Obligations.OnlyAlignedWordAccesses : Prop :=
  ∀ (s : State) (off : BitVec 9) (size : BitVec 2) (es : List Event),
    let defined := size = 0b10 ∧ off.toNat % 4 = 0
    (s.events = .host (.read off size) :: es →
      (defined → step s = .next (hostRead off { s with events := es })) ∧
      (¬defined → step s = .refused .subWordAccess ∨ step s = .refused .misalignedAccess)) ∧
    ∀ v, s.events = .host (.write off size v) :: es →
      (defined → step s = .next (hostWrite off v { s with events := es })) ∧
      (¬defined → step s = .refused .subWordAccess ∨ step s = .refused .misalignedAccess)

/-- O21: what is written to a data register with none in flight is what a read of it, with no other event between, returns (R82, R83,
R90, R94). -/
def Obligations.ReadReturnsLastWrite : Prop :=
  ∀ (s : State) (r : Reg) (off : BitVec 9) (v : Word), s.pend = none → r.offset = some off →
    r ≠ .ctrl → r ≠ .status → r ≠ .cmd → r ≠ .id →
    (hostRead off (hostWrite off v s)).reply = some v

/-- O22: a block's flat byte 4c + k is lane k of column c, so the host loads it as four words of four bytes in order (R16, R87). -/
def Obligations.FlatBytesAreColumnMajor : Prop :=
  ∀ f : Fin 16 → Byte,
    (∀ i, (Block.ofFlat f).flat i = f i) ∧
    Block.ofFlat f = ⟨word (f 0) (f 1) (f 2) (f 3), word (f 4) (f 5) (f 6) (f 7), word (f 8) (f 9) (f 10) (f 11),
      word (f 12) (f 13) (f 14) (f 15)⟩ ∧
    ∀ b : Block, Block.ofFlat b.flat = b

/-- O23: each offset of the window is reached at one host address, ENGINE_BASE plus the offset, whatever ENGINE_BASE is (R10, R81). That
it is 512-byte aligned is the model's reading (log 2, DEDUCED) of the parameter table of 92_eei_decisions.md, and of no rule. -/
def Obligations.WindowAtEngineBase : Prop :=
  Config.engineBase % 512 = 0 ∧ ∀ (addr : Nat) (off : BitVec 9), windowOffset addr = some off ↔ addr = Config.engineBase + off.toNat

/-! ### The engine's step (10_state.md) -/

/-- O24: at the engine's turn with command i in flight, the step is exec of i, with the turn's event, if there was one, taken off; with none in
flight the step changes nothing else (R56, R322). That the turn is the engine's where no event is left is the model's choice (log 4, DESIGN
CHOICE). -/
def Obligations.StepRunsTheCommandInFlight : Prop :=
  ∀ s : State, s.EngineNext →
    (∀ i, s.pend = some i → step s = exec i { s with events := s.events.tail }) ∧
    (s.pend = none → step s = .next { s with events := s.events.tail })

/-- O25: a CMD write and the engine's turn after it, none in flight before, are two steps that run the command (R129's `C`, R280, R56). -/
def Obligations.CommandIsIssueThenCompletion : Prop :=
  ∀ (s : State) (i : Instr) (es : List Event), s.pend = none →
    s.events = .host (.write 0x008 0b10 (encode i)) :: .engine :: es →
    core.run 2 s = runCommand i { s with events := es }

/-- O26: STATUS.BUSY reads 1 if and only if a command is in flight (R57). -/
def Obligations.BusyReadsPend : Prop :=
  ∀ s : State, ∃ x, (hostRead 0x004 s).reply = some x ∧ (x.getLsbD 0 = true ↔ s.pend ≠ none)

/-- O27: while a command is in flight, no host access changes it or anything it reads or writes: only DONE, ERR, ERRCODE and the model's own
fields can change (R285, R89). -/
def Obligations.InFlightStateIsFrozen : Prop :=
  ∀ (s t : State) (i : Instr) (a : BusAccess) (es : List Event), s.pend = some i → s.events = .host a :: es →
    step s = .next t →
    t = { s with events := es, done := t.done, err := t.err, errCode := t.errCode, reply := t.reply, draws := t.draws }

/-- O28: the command in flight completes and sets DONE after any number of host accesses that the engine defines. R56 asks only that the
completion comes at last; that it comes in the very step after the last event is the model's choice (log 4, DESIGN CHOICE). -/
def Obligations.InFlightCommandCompletes : Prop :=
  ∀ (s : State) (i : Instr), s.pend = some i → i.wellFormed = true →
    (∀ e ∈ s.events, ∃ a : BusAccess, e = .host a ∧ a.Defined) →
    ∃ t, core.run (s.events.length + 1) s = .next t ∧ t.pend = none ∧ t.done = true ∧ t.events = []

/-- O29: what a completing command may write (R42, R43, R44, R52, R54): DONE and PEND always; STATE, WA, KS and KSV only by the commands the rules
list; CTRL, ERR, ERRCODE, OPB, WB, the events and the model's fields never. -/
def Obligations.CommandsWriteOnlyTheirRegisters : Prop :=
  ∀ (i : Instr) (s t : State), exec i s = .next t →
    t.done = true ∧ t.pend = none ∧ t.ksz = s.ksz ∧ t.irqEn = s.irqEn ∧ t.err = s.err ∧ t.errCode = s.errCode ∧
    t.opb = s.opb ∧ t.wb = s.wb ∧ t.events = s.events ∧ t.reply = s.reply ∧ t.draws = s.draws ∧
    (t.state ≠ s.state →
      opcodeOf i ∈ ([0x01, 0x02, 0x03, 0x04, 0x05, 0x06, 0x07, 0x10, 0x11, 0x13, 0x15] : List (BitVec 8))) ∧
    (t.wa ≠ s.wa → opcodeOf i ∈ ([0x12, 0x14, 0x16, 0x20, 0x21, 0x22] : List (BitVec 8))) ∧
    (t.ks ≠ s.ks ∨ t.ksv ≠ s.ksv → i = .expand)

/-- O30: KSV rises only at the completion of EXPAND and falls only by a reset, a CTRL write that changes KSZ or a KS write that is not
dropped; each of these does so (R53). -/
def Obligations.KsvChanges : Prop :=
  ∀ s t : State, step s = .next t →
    (t.ksv ≠ s.ksv →
      (t.ksv = true ∧ s.EngineNext ∧ s.pend = some .expand) ∨
      (t.ksv = false ∧
        ((∃ a es, s.events = .reset a :: es) ∨
          (∃ v es, s.events = .host (.write 0x000 0b10 v) :: es ∧ t.ksz ≠ s.ksz) ∨
          (∃ (i : Fin 60) (v : Word) (es : List Event), s.pend = none ∧
            s.events = .host (.write (BitVec.ofNat 9 (0x100 + 4 * i.val)) 0b10 v) :: es)))) ∧
    (s.EngineNext → s.pend = some .expand → t.ksv = true) ∧
    (∀ a es, s.events = .reset a :: es → t.ksv = false) ∧
    (∀ v es, s.events = .host (.write 0x000 0b10 v) :: es → t.ksz ≠ s.ksz → t.ksv = false) ∧
    (∀ (i : Fin 60) (v : Word) (es : List Event), s.pend = none →
      s.events = .host (.write (BitVec.ofNat 9 (0x100 + 4 * i.val)) 0b10 v) :: es → t.ksv = false)

/-! ### Reset (70_reset_and_hazards.md) -/

/-- O31: the state after reset, field by field, and what the host reads then (R58). -/
def Obligations.ResetValues : Prop :=
  let s := State.reset
  s.ksz.bits = 0 ∧ s.ksz.nk = 4 ∧ s.ksz.nr = 10 ∧ s.ksz.kslen = 44 ∧ s.irqEn = false ∧ s.done = false ∧ s.err = false ∧ s.ksv = false ∧
  s.errCode.bits = 0 ∧ s.pend = none ∧ s.busy = false ∧ (∀ c, s.state.col c = 0) ∧ (∀ c, s.opb.col c = 0) ∧
  s.wa = 0 ∧ s.wb = 0 ∧ (∀ i : Fin 60, ksGet s.ks i.val = 0) ∧ (hostRead 0x00C s).reply = some 0x41455301 ∧
  (hostRead 0x000 s).reply = some 0 ∧ (hostRead 0x004 s).reply = some 0

/-- O32: rst from any state (R320): the engine's whole state takes its reset values, a command in flight is abandoned, irq is 0, an access
presented with it changes nothing and, if a read, returns 0. -/
def Obligations.ResetFromAnyState : Prop :=
  ∀ (s : State) (a : Option BusAccess) (es : List Event), s.events = .reset a :: es →
    (∀ b, a = some b → b.Defined) →
    ∃ t, step s = .next t ∧ SameEngine t State.reset ∧ t.irq = false ∧ t.events = es ∧
      ∀ off size, a = some (.read off size) → t.reply = some 0

/-! ### Invariants -/

/-- O33: the invariant holds after reset. -/
def Obligations.ResetHasInvariant : Prop := State.reset.Inv

/-- O34: every step keeps ERR and ERRCODE consistent, from every state in which they are (R281, R283, R49). -/
def Obligations.StepKeepsErrorConsistent : Prop :=
  ∀ s t : State, s.ErrorConsistent → step s = .next t → t.ErrorConsistent

/-- O35: every step keeps the command in flight one that rule R280 accepts: its ARG in range and, for ADDRK, its round within Nr and the
schedule valid until it completes (R55, R280, R285). -/
def Obligations.StepKeepsPendAccepted : Prop :=
  ∀ s t : State, s.PendAccepted → step s = .next t → t.PendAccepted

/-- O36: every step keeps the meaning of KSV: while it is 1, KS[0..KSLEN-1] is the expansion of KS[0..Nk-1] under the key size in force
(R48, R53). -/
def Obligations.StepKeepsScheduleValid : Prop :=
  ∀ s t : State, s.ScheduleValid → step s = .next t → t.ScheduleValid

/-- O37: from every state of the invariant whose next access, if any, is one the engine defines, the machine goes on, and into the invariant:
no fault, no refusal (R86, R280, R289). -/
def Obligations.MachineNeverStops : Prop :=
  ∀ s : State, s.Inv → s.NextAccessDefined → ∃ t, step s = .next t ∧ t.Inv

/-! ### Block algebra (40_block_algebra.md) -/

/-- O38: NOP completes and changes nothing else (R150). -/
def Obligations.NopOnlyCompletes : Prop :=
  ∀ s : State, exec .nop s = .next { s with pend := none, done := true }

/-- O39: TRANSP puts the old byte of row c, column r in row r, column c; the diagonal stays, twice is the identity, and nothing else
changes (R151). -/
def Obligations.TranspResult : Prop :=
  ∀ s : State, ∃ b, exec .transp s = .next { s with state := b, pend := none, done := true } ∧
    (∀ r c, b.byte r c = s.state.byte c r) ∧ (∀ k, b.byte k k = s.state.byte k k) ∧ Undoes .transp .transp

/-- O40: XORB exclusive-ors OPB into STATE column by column and changes nothing else; twice is the identity (R152). -/
def Obligations.XorbResult : Prop :=
  ∀ s : State, ∃ b, exec .xorb s = .next { s with state := b, pend := none, done := true } ∧
    (∀ c, b.col c = s.state.col c ^^^ s.opb.col c) ∧ Undoes .xorb .xorb

/-- O41: GETCOL n and GETROW n, n in 0..3, put column n and row n in WA, its lane k the k-th byte, and change nothing else (R153,
R155). -/
def Obligations.GetColumnAndRow : Prop :=
  ∀ (s : State) (n : Fin 4),
    (∃ w, exec (.getcol (BitVec.ofNat 8 n.val)) s = .next { s with wa := w, pend := none, done := true } ∧
      ∀ r, lane w r = s.state.byte r n) ∧
    (∃ w, exec (.getrow (BitVec.ofNat 8 n.val)) s = .next { s with wa := w, pend := none, done := true } ∧
      ∀ c, lane w c = s.state.byte n c)

/-- O42: SETCOL n and SETROW n, n in 0..3, put the lanes of WA in column n and row n; the other bytes of STATE and all else stay (R154,
R156). -/
def Obligations.SetColumnAndRow : Prop :=
  ∀ (s : State) (n : Fin 4),
    (∃ b, exec (.setcol (BitVec.ofNat 8 n.val)) s = .next { s with state := b, pend := none, done := true } ∧
      ∀ r c, b.byte r c = if c = n then lane s.wa r else s.state.byte r c) ∧
    (∃ b, exec (.setrow (BitVec.ofNat 8 n.val)) s = .next { s with state := b, pend := none, done := true } ∧
      ∀ r c, b.byte r c = if r = n then lane s.wa c else s.state.byte r c)

/-- O43: GETCOL n then SETCOL n, and GETROW n then SETROW n, leave STATE as it was; GETROW n leaves in WA what TRANSP, GETCOL n, TRANSP
leave, and STATE is then as before (R154, R155, R156). -/
def Obligations.RowAndColumnRoundTrips : Prop :=
  ∀ n : Fin 4, let k := BitVec.ofNat 8 n.val
    (∀ s, ∃ t u, exec (.getcol k) s = .next t ∧ exec (.setcol k) t = .next u ∧ u.state = s.state) ∧
    (∀ s, ∃ t u, exec (.getrow k) s = .next t ∧ exec (.setrow k) t = .next u ∧ u.state = s.state) ∧
    (∀ s, ∃ t u w x, exec (.getrow k) s = .next t ∧ exec .transp s = .next u ∧ exec (.getcol k) u = .next w ∧
      exec .transp w = .next x ∧ x = t)

/-- O44: the word commands on WA (R157, R211 to R215): XORW with WB; ROTW is the rotation left by 8 bits and moves lane k + 1 to lane k; SUBW
is S on every lane; RCON n, n in 0..10, changes lane 0 alone, by rc(n). Nothing else changes. -/
def Obligations.WordCommandResults : Prop :=
  ∀ s : State,
    exec .xorw s = .next { s with wa := s.wa ^^^ s.wb, pend := none, done := true } ∧
    (∃ w, exec .rotw s = .next { s with wa := w, pend := none, done := true } ∧ w = s.wa.rotateLeft 8 ∧
      ∀ k, lane w k = lane s.wa (k + 1)) ∧
    (∃ w, exec .subw s = .next { s with wa := w, pend := none, done := true } ∧ ∀ k, lane w k = sBox (lane s.wa k)) ∧
    ∀ n : Fin 11, ∃ w, exec (.rcon (BitVec.ofNat 8 n.val)) s = .next { s with wa := w, pend := none, done := true } ∧
      lane w 0 = lane s.wa 0 ^^^ rcByte n.val ∧ ∀ k, k ≠ 0 → lane w k = lane s.wa k

/-- O45: the block-algebra commands (R160), and NOP (R150), have no effect but on completion and the register each names: TRANSP, XORB and
SETROW write STATE, SETCOL n column n of it, GETCOL, GETROW and XORW write WA, NOP neither. They neither read nor write KS, KSV
or CTRL, nor, but for XORB, OPB: with other contents there they do the same and leave those contents. -/
def Obligations.BlockAlgebraTouchesNoSchedule : Prop :=
  ∀ (i : Instr) (s t : State) (z : KeySize) (e v : Bool) (k : Vector Word 60) (b : Block),
    opcodeOf i ∈ ([0x00, 0x10, 0x11, 0x12, 0x13, 0x14, 0x15, 0x16] : List (BitVec 8)) →
    exec i s = .next t →
    (opcodeOf i = 0x00 → t = { s with pend := none, done := true }) ∧
    (opcodeOf i ∈ ([0x10, 0x11, 0x13, 0x15] : List (BitVec 8)) → t = { s with state := t.state, pend := none, done := true }) ∧
    (∀ n, i = .setcol n → ∀ c : Fin 4, c.val ≠ n.toNat → t.state.col c = s.state.col c) ∧
    (opcodeOf i ∈ ([0x12, 0x14, 0x16] : List (BitVec 8)) → t = { s with wa := t.wa, pend := none, done := true }) ∧
    exec i { s with ksz := z, irqEn := e, ksv := v, ks := k } = .next { t with ksz := z, irqEn := e, ksv := v, ks := k } ∧
    (i ≠ .xorb → exec i { s with opb := b } = .next { t with opb := b })

/-! ### Tables and field arithmetic (41_tables_gf.md) -/

/-- O46: multiplication is commutative and associative, {01} is its unit and {00} its zero (R181), and {03} is doubling plus the value
(R182). -/
def Obligations.FieldMultiplicationLaws : Prop :=
  (∀ a b : Byte, gmul a b = gmul b a) ∧ (∀ a b c : Byte, gmul (gmul a b) c = gmul a (gmul b c)) ∧
  (∀ a : Byte, gmul a 0x01 = a ∧ gmul 0x00 a = 0x00 ∧ gmul a 0x02 = xtime a ∧ gmul a 0x03 = xtime a ^^^ a)

/-- O47: the products by the inverse coefficients, built from doubling, agree with the general product for every byte, and the examples of the
rule (R183). -/
def Obligations.InverseCoefficientProducts : Prop :=
  (∀ a : Byte,
    let x2 := xtime a
    let x4 := xtime x2
    let x8 := xtime x4
    mul09 a = x8 ^^^ a ∧ mul0b a = x8 ^^^ x2 ^^^ a ∧ mul0d a = x8 ^^^ x4 ^^^ a ∧ mul0e a = x8 ^^^ x4 ^^^ x2 ∧
    mul09 a = gmul a 0x09 ∧ mul0b a = gmul a 0x0b ∧ mul0d a = gmul a 0x0d ∧ mul0e a = gmul a 0x0e) ∧
  mul09 0xff = 0x46 ∧ mul0b 0xff = 0xa3 ∧ mul0d 0xff = 0x97 ∧ mul0e 0xff = 0x8d

/-- O48: S equals its algebraic definition entry by entry (R185): the affine map of the field inverse, with the inverse of 0 taken as 0; and every
byte but 0 has an inverse. -/
def Obligations.SBoxIsInverseThenAffine : Prop :=
  ∀ x : Byte, ∃ y : Byte, (if x = 0 then y = 0 else gmul x y = 0x01) ∧
    ∀ k : Fin 8, (sBox x).getLsbD k.val =
      (y.getLsbD k.val ^^ y.getLsbD ((k.val + 4) % 8) ^^ y.getLsbD ((k.val + 5) % 8) ^^ y.getLsbD ((k.val + 6) % 8) ^^
        y.getLsbD ((k.val + 7) % 8) ^^ (0x63 : Byte).getLsbD k.val)

/-- O49: S is a permutation with inverse InvS, has no fixed point and no point with S(x) = x ⊕ 0xff (R187). -/
def Obligations.SBoxPermutation : Prop :=
  ∀ x : Byte, invSBox (sBox x) = x ∧ sBox (invSBox x) = x ∧ sBox x ≠ x ∧ sBox x ≠ x ^^^ 0xff

/-- O60: the round constants of every index a command can name: rc(j) and, in lane 0 of a word that is else 0, Rcon(j) (R189). -/
def Obligations.RoundConstants : Prop :=
  let rc : Fin 11 → Byte := ![0x00, 0x01, 0x02, 0x04, 0x08, 0x10, 0x20, 0x40, 0x80, 0x1b, 0x36]
  ∀ j : Fin 11, rcByte j.val = rc j ∧ lane (rconWord j.val) 0 = rc j ∧ (∀ k, k ≠ 0 → lane (rconWord j.val) k = 0) ∧
    (2 ≤ j.val → rcByte j.val = xtime (rcByte (j.val - 1)))

/-! ### Key schedule (42_key_schedule.md) -/

/-- O50: EXPAND (R216, R217): the key words and the words from KSLEN on keep their values, every word between obeys the recursion, its three
branches as the rule gives them; KSV and DONE are set and nothing else changes. -/
def Obligations.ExpandResult : Prop :=
  ∀ s : State, ∃ k, exec .expand s = .next { s with ks := k, ksv := true, pend := none, done := true } ∧
    let nk := s.ksz.nk
    (∀ i, i < nk → ksGet k i = ksGet s.ks i) ∧
    (∀ i, nk ≤ i → i < 4 * (s.ksz.nr + 1) →
      let temp := ksGet k (i - 1)
      ksGet k i = ksGet k (i - nk) ^^^
        (if i % nk = 0 then subWord (rotWord temp) ^^^ rconWord (i / nk)
          else if 6 < nk ∧ i % nk = 4 then subWord temp
          else temp)) ∧
    (∀ i, 4 * (s.ksz.nr + 1) ≤ i → i < 60 → ksGet k i = ksGet s.ks i)

/-- O51: EXPAND reads only the key words: two states that agree on KSZ and KS[0..Nk-1] get the same schedule (R216), so EXPAND twice leaves KS as
the first left it. -/
def Obligations.ExpandReadsOnlyTheKey : Prop :=
  (∀ s t s' t' : State, exec .expand s = .next s' → exec .expand t = .next t' → s.ksz = t.ksz →
    (∀ i, i < s.ksz.nk → ksGet s.ks i = ksGet t.ks i) → ∀ i, i < s.ksz.kslen → ksGet s'.ks i = ksGet t'.ks i) ∧
  ∀ s : State, ∃ t u, exec .expand s = .next t ∧ exec .expand t = .next u ∧ u.ks = t.ks

/-- O52: one schedule word by word commands (R220): after WA and WB are written with words i - 1 and i - Nk of the schedule, the commands of the
rule for index i are all accepted, complete and leave word i in WA. -/
def Obligations.WordCommandsComputeTheSchedule : Prop :=
  ∀ (s : State) (i : Nat), s.pend = none → s.err = false → s.ksz.nk ≤ i → i < s.ksz.kslen →
    let w := keyExpansion s.ksz s.ks
    let nk := s.ksz.nk
    let commands : List Instr :=
      if i % nk = 0 then [.rotw, .subw, .rcon (BitVec.ofNat 8 (i / nk)), .xorw]
      else if nk = 8 ∧ i % 8 = 4 then [.subw, .xorw]
      else [.xorw]
    ∃ t, AcceptedRun commands (hostWrite 0x034 (ksGet w (i - nk)) (hostWrite 0x030 (ksGet w (i - 1)) s)) t ∧ t.wa = ksGet w i

/-! ### Round transforms (43_round_transform.md) -/

/-- O53: SUBB and ISUBB put every byte of STATE through S and InvS and change nothing else (R240, R241). -/
def Obligations.SubBytesResults : Prop :=
  ∀ s : State,
    (∃ b, exec .subb s = .next { s with state := b, pend := none, done := true } ∧
      ∀ r c, b.byte r c = sBox (s.state.byte r c)) ∧
    (∃ b, exec .isubb s = .next { s with state := b, pend := none, done := true } ∧
      ∀ r c, b.byte r c = invSBox (s.state.byte r c))

/-- O54: SHROW moves the byte of row r, column (c + r) mod 4 to column c, and ISHROW the byte of column c to column (c + r) mod 4; nothing else
changes (R242, R243). -/
def Obligations.ShiftRowsResults : Prop :=
  ∀ s : State,
    (∃ b, exec .shrow s = .next { s with state := b, pend := none, done := true } ∧
      ∀ r c d : Fin 4, d.val = (c.val + r.val) % 4 → b.byte r c = s.state.byte r d) ∧
    (∃ b, exec .ishrow s = .next { s with state := b, pend := none, done := true } ∧
      ∀ r c d : Fin 4, d.val = (c.val + r.val) % 4 → b.byte r d = s.state.byte r c)

/-- O55: MIXCOL and IMIXCOL multiply every column by the matrices M and M⁻¹ of R247 over GF(2^8), with the general product of R181, and change
nothing else (R244, R245). -/
def Obligations.MixColumnsResults : Prop :=
  let m : Fin 4 → Fin 4 → Byte :=
    ![![0x02, 0x03, 0x01, 0x01], ![0x01, 0x02, 0x03, 0x01], ![0x01, 0x01, 0x02, 0x03], ![0x03, 0x01, 0x01, 0x02]]
  let mInv : Fin 4 → Fin 4 → Byte :=
    ![![0x0e, 0x0b, 0x0d, 0x09], ![0x09, 0x0e, 0x0b, 0x0d], ![0x0d, 0x09, 0x0e, 0x0b], ![0x0b, 0x0d, 0x09, 0x0e]]
  ∀ s : State,
    (∃ b, exec .mixcol s = .next { s with state := b, pend := none, done := true } ∧
      ∀ r c, b.byte r c = gmul (m r 0) (s.state.byte 0 c) ^^^ gmul (m r 1) (s.state.byte 1 c) ^^^
        gmul (m r 2) (s.state.byte 2 c) ^^^ gmul (m r 3) (s.state.byte 3 c)) ∧
    (∃ b, exec .imixcol s = .next { s with state := b, pend := none, done := true } ∧
      ∀ r c, b.byte r c = gmul (mInv r 0) (s.state.byte 0 c) ^^^ gmul (mInv r 1) (s.state.byte 1 c) ^^^
        gmul (mInv r 2) (s.state.byte 2 c) ^^^ gmul (mInv r 3) (s.state.byte 3 c))

/-- O56: ADDRK n, n in 0..Nr, exclusive-ors KS[4n + c] into column c of STATE and changes nothing else (R246). -/
def Obligations.AddRoundKeyResult : Prop :=
  ∀ (s : State) (n : BitVec 8), n.toNat ≤ s.ksz.nr →
    ∃ b, exec (.addrk n) s = .next { s with state := b, pend := none, done := true } ∧
      ∀ c : Fin 4, b.col c = s.state.col c ^^^ ksGet s.ks (4 * n.toNat + c.val)

/-- O57: the inverse pairs and the commuting pairs of R248. -/
def Obligations.InversePairs : Prop :=
  Undoes .isubb .subb ∧ Undoes .subb .isubb ∧ Undoes .ishrow .shrow ∧ Undoes .shrow .ishrow ∧
  Undoes .imixcol .mixcol ∧ Undoes .mixcol .imixcol ∧
  (∀ n : BitVec 8, n.toNat ≤ 14 → Undoes (.addrk n) (.addrk n)) ∧
  CommandsCommute .subb .shrow ∧ CommandsCommute .subb .ishrow ∧
  ∀ s, ∃ t u v w, exec .subb s = .next t ∧ exec .shrow t = .next u ∧ exec .ishrow u = .next v ∧
    exec .isubb v = .next w ∧ w.state = s.state

/-- O58: the round trip of the cipher (R270, R271): with KSV = 1 and an idle engine without error, the 4·Nr commands of the forward cipher and the
4·Nr of the inverse are all accepted, complete and give STATE back its first value, for every key size and schedule; nothing else but DONE has changed. -/
def Obligations.CipherRoundTrip : Prop :=
  ∀ s : State, s.pend = none → s.err = false → s.ksv = true →
    (forwardCipher s.ksz).length = 4 * s.ksz.nr ∧ (inverseCipher s.ksz).length = 4 * s.ksz.nr ∧
    ∃ t, AcceptedRun (forwardCipher s.ksz) s t ∧ AcceptedRun (inverseCipher s.ksz) t { s with done := true }

/-- O59: an F1 command with ARG out of every key size's range, which R280 never lets in flight, stops with the fault argOutOfRange (the model's
choice, log 8). -/
def Obligations.ArgOutOfRangeFaults : Prop :=
  ∀ (i : Instr) (s : State), i.wellFormed = false → exec i s = .fault .argOutOfRange
end

