-- ==== Sys2Proof/Laws/Decode.lean ====
section
/-! SUPPORT. The laws of the command word's fields, the opcode map and the decoder. -/

namespace Sys2Proof

/-! ### Fields (rule R121) -/

/-- The bits of a command word (rule R121). -/
theorem commandWord_getLsbD (opc arg : BitVec 8) (i : Nat) :
    (commandWord opc arg).getLsbD i =
      if i < 8 then opc.getLsbD i else if i < 16 then arg.getLsbD (i - 8) else false := by
  change BitVec.getLsbD (w := 16 + 8 + 8) (0#16 ++ arg ++ opc) i = _
  simp only [BitVec.getLsbD_append, BitVec.getLsbD_zero]
  split
  · rfl
  · have h : (i - 8 < 8) = (i < 16) := by grind
    simp only [h]

@[simp] theorem opcField_commandWord (opc arg : BitVec 8) : opcField (commandWord opc arg) = opc := by
  apply BitVec.eq_of_getLsbD_eq; intro i hi
  simp only [opcField, BitVec.getLsbD_extractLsb', commandWord_getLsbD]; grind

@[simp] theorem argField_commandWord (opc arg : BitVec 8) : argField (commandWord opc arg) = arg := by
  apply BitVec.eq_of_getLsbD_eq; intro i hi
  simp only [argField, BitVec.getLsbD_extractLsb', commandWord_getLsbD]; grind

@[simp] theorem rsvdField_commandWord (opc arg : BitVec 8) : rsvdField (commandWord opc arg) = 0 := by
  apply BitVec.eq_of_getLsbD_eq; intro i hi
  simp only [rsvdField, BitVec.getLsbD_extractLsb', commandWord_getLsbD]; grind

/-- A word whose RSVD is 0 is made of its other two fields (rule R121). -/
theorem commandWord_fields {v : Word} (h : rsvdField v = 0) : commandWord (opcField v) (argField v) = v := by
  apply BitVec.eq_of_getLsbD_eq; intro i hi
  have hr : ∀ j, (rsvdField v).getLsbD j = false := by intro j; simp [h]
  have := hr (i - 16)
  simp only [rsvdField, BitVec.getLsbD_extractLsb'] at this
  simp only [opcField, argField, BitVec.getLsbD_extractLsb', commandWord_getLsbD]; grind

/-- The opcode map gives back a command from its own opcode and argument (rule R124). -/
@[simp] theorem opcodeMap_opcodeOf (i : Instr) : opcodeMap (opcodeOf i) i.arg = some i := by
  cases i <;> rfl

/-- What the opcode map gives has the opcode and, if it is an F1 command, the argument asked for (rule R124). -/
theorem opcodeMap_some {opc arg : BitVec 8} {i : Instr} (h : opcodeMap opc arg = some i) :
    opcodeOf i = opc ∧ (i.argMax ≠ none → i.arg = arg) := by
  unfold opcodeMap at h
  split at h <;> cases h <;> simp_all [opcodeOf, Instr.argMax, Instr.arg, BitVec.toNat_eq]

end Sys2Proof
end

