-- ==== Sys2Proof/Laws/State.lean ====
section
/-! SUPPORT. One lemma for each field of each named update of the state, so that no proof unfolds a record update. -/

namespace Sys2Proof.Machine

/-! ### `complete`: The end of a command (rule R56) -/

@[simp] theorem complete_ksz (s : State) : s.complete.ksz = s.ksz := rfl
@[simp] theorem complete_irqEn (s : State) : s.complete.irqEn = s.irqEn := rfl
@[simp] theorem complete_done (s : State) : s.complete.done = true := rfl
@[simp] theorem complete_err (s : State) : s.complete.err = s.err := rfl
@[simp] theorem complete_errCode (s : State) : s.complete.errCode = s.errCode := rfl
@[simp] theorem complete_ksv (s : State) : s.complete.ksv = s.ksv := rfl
@[simp] theorem complete_state (s : State) : s.complete.state = s.state := rfl
@[simp] theorem complete_opb (s : State) : s.complete.opb = s.opb := rfl
@[simp] theorem complete_wa (s : State) : s.complete.wa = s.wa := rfl
@[simp] theorem complete_wb (s : State) : s.complete.wb = s.wb := rfl
@[simp] theorem complete_ks (s : State) : s.complete.ks = s.ks := rfl
@[simp] theorem complete_pend (s : State) : s.complete.pend = none := rfl
@[simp] theorem complete_events (s : State) : s.complete.events = s.events := rfl
@[simp] theorem complete_reply (s : State) : s.complete.reply = s.reply := rfl
@[simp] theorem complete_draws (s : State) : s.complete.draws = s.draws := rfl

/-! ### `setState`: STATE <- b -/

@[simp] theorem setState_ksz (s : State) (b : Block) : (s.setState b).ksz = s.ksz := rfl
@[simp] theorem setState_irqEn (s : State) (b : Block) : (s.setState b).irqEn = s.irqEn := rfl
@[simp] theorem setState_done (s : State) (b : Block) : (s.setState b).done = s.done := rfl
@[simp] theorem setState_err (s : State) (b : Block) : (s.setState b).err = s.err := rfl
@[simp] theorem setState_errCode (s : State) (b : Block) : (s.setState b).errCode = s.errCode := rfl
@[simp] theorem setState_ksv (s : State) (b : Block) : (s.setState b).ksv = s.ksv := rfl
@[simp] theorem setState_state (s : State) (b : Block) : (s.setState b).state = b := rfl
@[simp] theorem setState_opb (s : State) (b : Block) : (s.setState b).opb = s.opb := rfl
@[simp] theorem setState_wa (s : State) (b : Block) : (s.setState b).wa = s.wa := rfl
@[simp] theorem setState_wb (s : State) (b : Block) : (s.setState b).wb = s.wb := rfl
@[simp] theorem setState_ks (s : State) (b : Block) : (s.setState b).ks = s.ks := rfl
@[simp] theorem setState_pend (s : State) (b : Block) : (s.setState b).pend = s.pend := rfl
@[simp] theorem setState_events (s : State) (b : Block) : (s.setState b).events = s.events := rfl
@[simp] theorem setState_reply (s : State) (b : Block) : (s.setState b).reply = s.reply := rfl
@[simp] theorem setState_draws (s : State) (b : Block) : (s.setState b).draws = s.draws := rfl

/-! ### `setWa`: WA <- w -/

@[simp] theorem setWa_ksz (s : State) (w : Word) : (s.setWa w).ksz = s.ksz := rfl
@[simp] theorem setWa_irqEn (s : State) (w : Word) : (s.setWa w).irqEn = s.irqEn := rfl
@[simp] theorem setWa_done (s : State) (w : Word) : (s.setWa w).done = s.done := rfl
@[simp] theorem setWa_err (s : State) (w : Word) : (s.setWa w).err = s.err := rfl
@[simp] theorem setWa_errCode (s : State) (w : Word) : (s.setWa w).errCode = s.errCode := rfl
@[simp] theorem setWa_ksv (s : State) (w : Word) : (s.setWa w).ksv = s.ksv := rfl
@[simp] theorem setWa_state (s : State) (w : Word) : (s.setWa w).state = s.state := rfl
@[simp] theorem setWa_opb (s : State) (w : Word) : (s.setWa w).opb = s.opb := rfl
@[simp] theorem setWa_wa (s : State) (w : Word) : (s.setWa w).wa = w := rfl
@[simp] theorem setWa_wb (s : State) (w : Word) : (s.setWa w).wb = s.wb := rfl
@[simp] theorem setWa_ks (s : State) (w : Word) : (s.setWa w).ks = s.ks := rfl
@[simp] theorem setWa_pend (s : State) (w : Word) : (s.setWa w).pend = s.pend := rfl
@[simp] theorem setWa_events (s : State) (w : Word) : (s.setWa w).events = s.events := rfl
@[simp] theorem setWa_reply (s : State) (w : Word) : (s.setWa w).reply = s.reply := rfl
@[simp] theorem setWa_draws (s : State) (w : Word) : (s.setWa w).draws = s.draws := rfl

/-! ### `setSchedule`: KS <- k, KSV <- 1 (rule R216) -/

@[simp] theorem setSchedule_ksz (s : State) (k : Vector Word 60) : (s.setSchedule k).ksz = s.ksz := rfl
@[simp] theorem setSchedule_irqEn (s : State) (k : Vector Word 60) : (s.setSchedule k).irqEn = s.irqEn := rfl
@[simp] theorem setSchedule_done (s : State) (k : Vector Word 60) : (s.setSchedule k).done = s.done := rfl
@[simp] theorem setSchedule_err (s : State) (k : Vector Word 60) : (s.setSchedule k).err = s.err := rfl
@[simp] theorem setSchedule_errCode (s : State) (k : Vector Word 60) : (s.setSchedule k).errCode = s.errCode := rfl
@[simp] theorem setSchedule_ksv (s : State) (k : Vector Word 60) : (s.setSchedule k).ksv = true := rfl
@[simp] theorem setSchedule_state (s : State) (k : Vector Word 60) : (s.setSchedule k).state = s.state := rfl
@[simp] theorem setSchedule_opb (s : State) (k : Vector Word 60) : (s.setSchedule k).opb = s.opb := rfl
@[simp] theorem setSchedule_wa (s : State) (k : Vector Word 60) : (s.setSchedule k).wa = s.wa := rfl
@[simp] theorem setSchedule_wb (s : State) (k : Vector Word 60) : (s.setSchedule k).wb = s.wb := rfl
@[simp] theorem setSchedule_ks (s : State) (k : Vector Word 60) : (s.setSchedule k).ks = k := rfl
@[simp] theorem setSchedule_pend (s : State) (k : Vector Word 60) : (s.setSchedule k).pend = s.pend := rfl
@[simp] theorem setSchedule_events (s : State) (k : Vector Word 60) : (s.setSchedule k).events = s.events := rfl
@[simp] theorem setSchedule_reply (s : State) (k : Vector Word 60) : (s.setSchedule k).reply = s.reply := rfl
@[simp] theorem setSchedule_draws (s : State) (k : Vector Word 60) : (s.setSchedule k).draws = s.draws := rfl

/-! ### `clearError`: ERR <- 0, ERRCODE <- 0 (rule R49) -/

@[simp] theorem clearError_ksz (s : State) : (clearError s).ksz = s.ksz := rfl
@[simp] theorem clearError_irqEn (s : State) : (clearError s).irqEn = s.irqEn := rfl
@[simp] theorem clearError_done (s : State) : (clearError s).done = s.done := rfl
@[simp] theorem clearError_err (s : State) : (clearError s).err = false := rfl
@[simp] theorem clearError_errCode (s : State) : (clearError s).errCode = .noError := rfl
@[simp] theorem clearError_ksv (s : State) : (clearError s).ksv = s.ksv := rfl
@[simp] theorem clearError_state (s : State) : (clearError s).state = s.state := rfl
@[simp] theorem clearError_opb (s : State) : (clearError s).opb = s.opb := rfl
@[simp] theorem clearError_wa (s : State) : (clearError s).wa = s.wa := rfl
@[simp] theorem clearError_wb (s : State) : (clearError s).wb = s.wb := rfl
@[simp] theorem clearError_ks (s : State) : (clearError s).ks = s.ks := rfl
@[simp] theorem clearError_pend (s : State) : (clearError s).pend = s.pend := rfl
@[simp] theorem clearError_events (s : State) : (clearError s).events = s.events := rfl
@[simp] theorem clearError_reply (s : State) : (clearError s).reply = s.reply := rfl
@[simp] theorem clearError_draws (s : State) : (clearError s).draws = s.draws := rfl

/-! ### `recordError` (rule R283): what it leaves, and the two fields it may write -/

@[simp] theorem recordError_ksz (code : ErrorCode) (s : State) : (recordError code s).ksz = s.ksz := by
  unfold recordError; split <;> rfl
@[simp] theorem recordError_irqEn (code : ErrorCode) (s : State) : (recordError code s).irqEn = s.irqEn := by
  unfold recordError; split <;> rfl
@[simp] theorem recordError_done (code : ErrorCode) (s : State) : (recordError code s).done = s.done := by
  unfold recordError; split <;> rfl
@[simp] theorem recordError_err (code : ErrorCode) (s : State) : (recordError code s).err = true := by
  unfold recordError; split <;> simp_all
theorem recordError_errCode (code : ErrorCode) (s : State) :
    (recordError code s).errCode = if s.err then s.errCode else code := by
  unfold recordError; split <;> rfl
@[simp] theorem recordError_ksv (code : ErrorCode) (s : State) : (recordError code s).ksv = s.ksv := by
  unfold recordError; split <;> rfl
@[simp] theorem recordError_state (code : ErrorCode) (s : State) : (recordError code s).state = s.state := by
  unfold recordError; split <;> rfl
@[simp] theorem recordError_opb (code : ErrorCode) (s : State) : (recordError code s).opb = s.opb := by
  unfold recordError; split <;> rfl
@[simp] theorem recordError_wa (code : ErrorCode) (s : State) : (recordError code s).wa = s.wa := by
  unfold recordError; split <;> rfl
@[simp] theorem recordError_wb (code : ErrorCode) (s : State) : (recordError code s).wb = s.wb := by
  unfold recordError; split <;> rfl
@[simp] theorem recordError_ks (code : ErrorCode) (s : State) : (recordError code s).ks = s.ks := by
  unfold recordError; split <;> rfl
@[simp] theorem recordError_pend (code : ErrorCode) (s : State) : (recordError code s).pend = s.pend := by
  unfold recordError; split <;> rfl
@[simp] theorem recordError_events (code : ErrorCode) (s : State) : (recordError code s).events = s.events := by
  unfold recordError; split <;> rfl
@[simp] theorem recordError_reply (code : ErrorCode) (s : State) : (recordError code s).reply = s.reply := by
  unfold recordError; split <;> rfl
@[simp] theorem recordError_draws (code : ErrorCode) (s : State) : (recordError code s).draws = s.draws := by
  unfold recordError; split <;> rfl

/-- The first error is kept (rule R283). -/
theorem recordError_of_err {code : ErrorCode} {s : State} (h : s.err = true) : recordError code s = s := by
  simp [recordError, h]

/-- With none recorded, the error is (rule R283). -/
theorem recordError_of_not_err {code : ErrorCode} {s : State} (h : s.err = false) :
    recordError code s = { s with err := true, errCode := code } := by
  simp [recordError, h]

@[simp] theorem complete_busy (s : State) : s.complete.busy = false := rfl

@[simp] theorem recordError_busy (code : ErrorCode) (s : State) : (recordError code s).busy = s.busy := by
  simp [State.busy]

end Sys2Proof.Machine
end

