-- ==== Sys2Proof/Laws/Operands.lean ====
section
/-! SUPPORT. The laws of the operand forms: lanes, blocks, the key-schedule memory, argument indices and the address map. -/

namespace Sys2Proof.Machine

/-! ### Lanes (rule R15) -/

/-- The bits of a word made of four bytes: the last byte is the lowest. -/
theorem word_getLsbD (a b c d : Byte) (i : Nat) :
    (word a b c d).getLsbD i =
      if i < 8 then d.getLsbD i
      else if i < 16 then c.getLsbD (i - 8)
      else if i < 24 then b.getLsbD (i - 16)
      else a.getLsbD (i - 24) := by
  change BitVec.getLsbD (w := 8 + 8 + 8 + 8) (a ++ b ++ c ++ d) i = _
  simp only [BitVec.getLsbD_append]
  split
  · rfl
  · have h8 : (i - 8 < 8) = (i < 16) := by grind
    have h16 : (i - 8 - 8 < 8) = (i < 24) := by grind
    have e16 : i - 8 - 8 = i - 16 := by omega
    have e24 : i - 16 - 8 = i - 24 := by omega
    have e24' : (i - 16 < 8) = (i < 24) := by grind
    simp only [h8, e16, e24, e24']

/-- The bits of a lane (rule R15). -/
theorem lane_getLsbD (w : Word) (k : Fin 4) (i : Nat) :
    (lane w k).getLsbD i = (decide (i < 8) && w.getLsbD (24 - 8 * k.val + i)) := by
  simp only [lane, BitVec.getLsbD_extractLsb']

@[simp] theorem lane_word_zero (a b c d : Byte) : lane (word a b c d) 0 = a := by
  apply BitVec.eq_of_getLsbD_eq; intro i hi
  simp only [lane_getLsbD, word_getLsbD]; grind

@[simp] theorem lane_word_one (a b c d : Byte) : lane (word a b c d) 1 = b := by
  apply BitVec.eq_of_getLsbD_eq; intro i hi
  simp only [lane_getLsbD, word_getLsbD]; grind

@[simp] theorem lane_word_two (a b c d : Byte) : lane (word a b c d) 2 = c := by
  apply BitVec.eq_of_getLsbD_eq; intro i hi
  simp only [lane_getLsbD, word_getLsbD]; grind

@[simp] theorem lane_word_three (a b c d : Byte) : lane (word a b c d) 3 = d := by
  apply BitVec.eq_of_getLsbD_eq; intro i hi
  simp only [lane_getLsbD, word_getLsbD]; grind

@[simp] theorem lane_wordOf (f : Fin 4 → Byte) (k : Fin 4) : lane (wordOf f) k = f k := by
  match k with
  | 0 => simp [wordOf]
  | 1 => simp [wordOf]
  | 2 => simp [wordOf]
  | 3 => simp [wordOf]

/-- A word is made of its lanes (rule R15). -/
theorem word_lanes (w : Word) : word (lane w 0) (lane w 1) (lane w 2) (lane w 3) = w := by
  apply BitVec.eq_of_getLsbD_eq; intro i hi
  simp only [word_getLsbD, lane_getLsbD]; grind

/-- Two words with equal lanes are equal. -/
theorem word_ext {v w : Word} (h : ∀ k, lane v k = lane w k) : v = w := by
  rw [← word_lanes v, ← word_lanes w, h, h, h, h]

@[simp] theorem lane_xor (v w : Word) (k : Fin 4) : lane (v ^^^ w) k = lane v k ^^^ lane w k := by
  apply BitVec.eq_of_getLsbD_eq; intro i hi
  simp only [lane_getLsbD, BitVec.getLsbD_xor]; grind

/-! ### Blocks (rules R16, R43) -/

@[simp] theorem col_ofCols (f : Fin 4 → Word) (c : Fin 4) : (Block.ofCols f).col c = f c := by
  match c with
  | 0 => rfl
  | 1 => rfl
  | 2 => rfl
  | 3 => rfl

/-- Two blocks with equal columns are equal. -/
theorem Block.ext_col {a b : Block} (h : ∀ c, a.col c = b.col c) : a = b := by
  cases a; cases b
  have h0 := h 0
  have h1 := h 1
  have h2 := h 2
  have h3 := h 3
  simp only [Block.col] at h0 h1 h2 h3
  subst h0 h1 h2 h3
  rfl

/-- Two blocks with equal bytes are equal. -/
theorem Block.ext_byte {a b : Block} (h : ∀ r c, a.byte r c = b.byte r c) : a = b :=
  Block.ext_col fun c => word_ext fun r => h r c

@[simp] theorem byte_ofMatrix (f : Fin 4 → Fin 4 → Byte) (r c : Fin 4) : (Block.ofMatrix f).byte r c = f r c := by
  simp [Block.byte, Block.ofMatrix]

@[simp] theorem lane_row (b : Block) (r c : Fin 4) : lane (b.row r) c = b.byte r c := by
  simp [Block.row]

@[simp] theorem lane_col (b : Block) (r c : Fin 4) : lane (b.col c) r = b.byte r c := rfl

@[simp] theorem col_setCol (b : Block) (n c : Fin 4) (w : Word) :
    (b.setCol n w).col c = if c = n then w else b.col c := by
  simp [Block.setCol]

@[simp] theorem byte_setRow (b : Block) (n r c : Fin 4) (w : Word) :
    (b.setRow n w).byte r c = if r = n then lane w c else b.byte r c := by
  simp [Block.setRow]

@[simp] theorem col_xor (a b : Block) (c : Fin 4) : (a.xor b).col c = a.col c ^^^ b.col c := by
  simp [Block.xor]

@[simp] theorem byte_xor (a b : Block) (r c : Fin 4) : (a.xor b).byte r c = a.byte r c ^^^ b.byte r c := by
  change lane ((a.xor b).col c) r = _
  rw [col_xor, lane_xor]; rfl

@[simp] theorem col_roundKey (ks : Vector Word 60) (n : Fin 15) (c : Fin 4) :
    (roundKey ks n).col c = ksGet ks (4 * n.val + c.val) := by
  simp [roundKey]

/-! ### The key-schedule memory (rule R52) -/

/-- Reading KS after a write: the written word at its index, the old word elsewhere. -/
theorem ksGet_ksSet (ks : Vector Word 60) (i j : Nat) (v : Word) (hi : i < 60) :
    ksGet (ksSet ks i v) j = if j = i then v else ksGet ks j := by
  unfold ksGet ksSet
  by_cases hj : j < 60
  · simp only [hj, dite_true, Vector.getElem_setIfInBounds]
    by_cases h : i = j
    · simp [h]
    · simp [h, Ne.symm h]
  · have : j ≠ i := by omega
    simp [hj, this]

/-- Two key-schedule memories with equal words are equal. -/
theorem ks_ext {a b : Vector Word 60} (h : ∀ i, i < 60 → ksGet a i = ksGet b i) : a = b := by
  apply Vector.ext; intro i hi
  have := h i hi
  simpa [ksGet, hi] using this

/-! ### Arguments and offsets (rules R81, R122) -/

/-- An ARG in the range is its own index. -/
theorem argIndex_of_le {m : Nat} {n : BitVec 8} (h : n.toNat ≤ m) : argIndex m n = some ⟨n.toNat, Nat.lt_succ_of_le h⟩ := by
  simp [argIndex, h]

/-- An ARG above the range has no index. -/
theorem argIndex_of_lt {m : Nat} {n : BitVec 8} (h : m < n.toNat) : argIndex m n = none := by
  simp [argIndex, Nat.not_le.mpr h]

/-- The address map finds each register at its offset (rule R81). -/
theorem regAt_offset (r : Reg) (off : BitVec 9) (h : r.offset = some off) : regAt off = r := by
  cases r with
  | unmapped => cases h
  | state c => simp only [Reg.offset, Option.some.injEq] at h; subst h; revert c; decide
  | opb c => simp only [Reg.offset, Option.some.injEq] at h; subst h; revert c; decide
  | ks i => simp only [Reg.offset, Option.some.injEq] at h; subst h; revert i; decide
  | _ => cases h; decide

end Sys2Proof.Machine
end

