-- ==== Sys2Proof/Laws/Ops.lean ====
section
/-! SUPPORT. What each shared operation can do, said once. -/

namespace Sys2Proof.Machine

/-! ### F1 commands -/

/-- An F1 command whose ARG is in range completes (rule R56). -/
theorem completeAt_of_le {m : Nat} {n : BitVec 8} {f : Fin (m + 1) → State} (h : n.toNat ≤ m) :
    completeAt m n f = .next (f ⟨n.toNat, Nat.lt_succ_of_le h⟩).complete := by
  simp [completeAt, argIndex_of_le h]

/-- An F1 command whose ARG is out of range, which rule R280 never lets in, stops. -/
theorem completeAt_of_lt {m : Nat} {n : BitVec 8} {f : Fin (m + 1) → State} (h : m < n.toNat) :
    completeAt m n f = .fault .argOutOfRange := by
  simp [completeAt, argIndex_of_lt h]

/-- All an F1 command can answer. -/
theorem completeAt_next {m : Nat} {n : BitVec 8} {f : Fin (m + 1) → State} {t : State} (h : completeAt m n f = .next t) :
    ∃ k : Fin (m + 1), k.val = n.toNat ∧ t = (f k).complete := by
  by_cases hm : n.toNat ≤ m
  · rw [completeAt_of_le hm] at h
    exact ⟨_, rfl, by cases h; rfl⟩
  · rw [completeAt_of_lt (Nat.lt_of_not_le hm)] at h
    cases h

/-! ### Issue (rule R280) -/

/-- All that a CMD write can do: nothing (ERR = 1, rule R284), record one error (rule R283), or set PEND (rule R55). -/
theorem issue_cases (v : Word) (s : State) :
    (s.err = true ∧ issue v s = s) ∨
    (s.err = false ∧ ∃ code, code ≠ .noError ∧ issue v s = { s with err := true, errCode := code }) ∨
    (s.err = false ∧ ∃ i, decode v = .ok i ∧ acceptanceError s i = none ∧ issue v s = { s with pend := some i }) := by
  unfold issue
  cases he : s.err with
  | true => simp
  | false =>
    simp only [Bool.false_eq_true, if_false]
    cases hd : decode v with
    | error e =>
      right; left
      refine ⟨trivial, DecodeError.code e, by cases e <;> simp [DecodeError.code], ?_⟩
      simp [recordError_of_not_err he]
    | ok i =>
      cases ha : acceptanceError s i with
      | some code =>
        right; left
        refine ⟨trivial, code, ?_, by simp [ha, recordError_of_not_err he]⟩
        intro hc; subst hc
        cases i <;> simp [acceptanceError] at ha
        split at ha <;> [cases ha; (split at ha <;> cases ha)]
      | none =>
        right; right
        exact ⟨trivial, i, rfl, ha, by simp [ha]⟩

/-! ### Host accesses (rules R82, R83) -/

/-- A write that is dropped because a command is in flight records E_BUSY and does nothing else (rule R285). -/
theorem hostWrite_dropped {off : BitVec 9} {v : Word} {s : State} (hb : s.busy = true)
    (hl : (regAt off).lockedWhileBusy = true) : hostWrite off v s = recordError .busy s := by
  simp [hostWrite, hb, hl]

/-- A write with no command in flight takes effect (rule R83). -/
theorem hostWrite_idle {off : BitVec 9} {v : Word} {s : State} (hb : s.busy = false) :
    hostWrite off v s = writeReg (regAt off) v s := by
  simp [hostWrite, hb]

/-- A write to STATUS, ID or an unmapped offset takes effect always (rule R285). -/
theorem hostWrite_unlocked {off : BitVec 9} {v : Word} {s : State} (hl : (regAt off).lockedWhileBusy = false) :
    hostWrite off v s = writeReg (regAt off) v s := by
  simp [hostWrite, hl]

/-- All that a host read can change: the reply and the count of draws (rules R82, R90). -/
theorem hostRead_spec (off : BitVec 9) (s : State) :
    ∃ x n, hostRead off s = { s with reply := some x, draws := n } := by
  unfold hostRead
  split
  · exact ⟨_, _, rfl⟩
  · exact ⟨_, s.draws, rfl⟩

/-- A read that is exact (rules R82, R91). -/
theorem hostRead_exact {off : BitVec 9} {s : State} (h : (s.busy && (regAt off).openWhileBusy) = false) :
    hostRead off s = { s with reply := some (readReg (regAt off) s) } := by
  simp [hostRead, h]

/-- All that a bus access can do (rule R86). -/
theorem busAccess_cases (a : BusAccess) (s : State) :
    (∃ r, a.refusal = some r ∧ busAccess a s = .refused r) ∨
    (a.refusal = none ∧ ∃ off size, a = .read off size ∧ busAccess a s = .next (hostRead off s)) ∨
    (a.refusal = none ∧ ∃ off size v, a = .write off size v ∧ busAccess a s = .next (hostWrite off v s)) := by
  cases h : a.refusal with
  | some r => exact .inl ⟨r, rfl, by simp [busAccess, h]⟩
  | none =>
    cases a with
    | read off size => exact .inr (.inl ⟨rfl, off, size, rfl, by simp [busAccess, h]⟩)
    | write off size v => exact .inr (.inr ⟨rfl, off, size, v, rfl, by simp [busAccess, h]⟩)

/-- A refusal of an access is one of the two for BUS_SUBWORD (rule R86). -/
theorem refusal_cases {a : BusAccess} {r : Refusal} (h : a.refusal = some r) :
    r = .subWordAccess ∨ r = .misalignedAccess := by
  unfold BusAccess.refusal at h
  split at h
  · cases h; exact .inl rfl
  · split at h
    · cases h; exact .inr rfl
    · cases h

/-- All that a reset can do (rule R320). -/
theorem busReset_cases (a : Option BusAccess) (s : State) :
    (∃ r, a.bind BusAccess.refusal = some r ∧ busReset a s = .refused r) ∨
    (a.bind BusAccess.refusal = none ∧
      busReset a s = .next { State.reset with events := s.events, reply := resetReply a, draws := s.draws }) := by
  unfold busReset
  cases h : a.bind BusAccess.refusal with
  | some r => exact .inl ⟨r, rfl, rfl⟩
  | none => exact .inr ⟨rfl, rfl⟩

end Sys2Proof.Machine
end

