-- ==== Sys2Proof/Laws/Tables.lean ====
section
/-! SUPPORT. The laws of the field arithmetic, the tables and the round constants. -/

namespace Sys2Proof.Machine

/-- Doubling is linear over exclusive-or (rule R180). -/
theorem xtime_xor (a b : Byte) : xtime (a ^^^ b) = xtime a ^^^ xtime b := by
  unfold xtime
  rw [BitVec.shiftLeft_xor_distrib, BitVec.getLsbD_xor]
  cases a.getLsbD 7 <;> cases b.getLsbD 7 <;> simp
  · ac_rfl
  · ac_rfl
  · rw [BitVec.xor_assoc, ← BitVec.xor_assoc (27#8), BitVec.xor_comm (27#8), BitVec.xor_assoc (b <<< 1)]; simp

@[simp] theorem xtime_zero : xtime 0 = 0 := by decide

/-- Repeated doubling is linear over exclusive-or (rule R181). -/
theorem xtimes_xor (k : Nat) (a b : Byte) : xtimes k (a ^^^ b) = xtimes k a ^^^ xtimes k b := by
  induction k with
  | zero => rfl
  | succ k ih => simp only [xtimes, ih, xtime_xor]

/-- The fixed products are linear over exclusive-or (rules R182, R183). -/
theorem mul03_xor (a b : Byte) : mul03 (a ^^^ b) = mul03 a ^^^ mul03 b := by
  simp only [mul03, xtime_xor]; ac_rfl

theorem mul09_xor (a b : Byte) : mul09 (a ^^^ b) = mul09 a ^^^ mul09 b := by
  simp only [mul09, xtime_xor]; ac_rfl

theorem mul0b_xor (a b : Byte) : mul0b (a ^^^ b) = mul0b a ^^^ mul0b b := by
  simp only [mul0b, xtime_xor]; ac_rfl

theorem mul0d_xor (a b : Byte) : mul0d (a ^^^ b) = mul0d a ^^^ mul0d b := by
  simp only [mul0d, xtime_xor]; ac_rfl

theorem mul0e_xor (a b : Byte) : mul0e (a ^^^ b) = mul0e a ^^^ mul0e b := by
  simp only [mul0e, xtime_xor]; ac_rfl

/-- Only lane 0 of a round-constant word is not zero (rule R189). -/
theorem lane_rconWord (j : Nat) (k : Fin 4) : lane (rconWord j) k = if k = 0 then rcByte j else 0 := by
  have h : ∀ (b : Byte) (k : Fin 4), lane (word b 0 0 0) k = if k = 0 then b else 0 := by decide
  exact h _ _

end Sys2Proof.Machine
end

