-- ==== Sys2Proof/Laws/Exec.lean ====
section
/-! SUPPORT. What completing a command can do, said once for all commands, and the byte and word laws of the transforms. -/

namespace Sys2Proof.Machine

/-- All that completing a command can change (rules R54, R56, R42 to R44, R52). -/
theorem exec_next {i : Instr} {s t : State} (h : exec i s = .next t) :
    ∃ b w k v, t = { s with state := b, wa := w, ks := k, ksv := v, pend := none, done := true } := by
  cases i
  case addrk n => obtain ⟨_, _, rfl⟩ := completeAt_next h; exact ⟨_, _, _, _, rfl⟩
  case getcol n => obtain ⟨_, _, rfl⟩ := completeAt_next h; exact ⟨_, _, _, _, rfl⟩
  case setcol n => obtain ⟨_, _, rfl⟩ := completeAt_next h; exact ⟨_, _, _, _, rfl⟩
  case getrow n => obtain ⟨_, _, rfl⟩ := completeAt_next h; exact ⟨_, _, _, _, rfl⟩
  case setrow n => obtain ⟨_, _, rfl⟩ := completeAt_next h; exact ⟨_, _, _, _, rfl⟩
  case rcon n => obtain ⟨_, _, rfl⟩ := completeAt_next h; exact ⟨_, _, _, _, rfl⟩
  all_goals cases h; exact ⟨_, _, _, _, rfl⟩

/-- A command whose ARG is in range completes, whatever the state (rule R56). -/
theorem exec_of_wellFormed {i : Instr} (h : i.wellFormed = true) (s : State) : ∃ t, exec i s = .next t := by
  cases i
  case addrk n => exact ⟨_, completeAt_of_le (of_decide_eq_true h)⟩
  case getcol n => exact ⟨_, completeAt_of_le (of_decide_eq_true h)⟩
  case setcol n => exact ⟨_, completeAt_of_le (of_decide_eq_true h)⟩
  case getrow n => exact ⟨_, completeAt_of_le (of_decide_eq_true h)⟩
  case setrow n => exact ⟨_, completeAt_of_le (of_decide_eq_true h)⟩
  case rcon n => exact ⟨_, completeAt_of_le (of_decide_eq_true h)⟩
  all_goals exact ⟨_, rfl⟩

/-! ### Transforms, byte by byte and column by column -/

@[simp] theorem byte_transpose (b : Block) (r c : Fin 4) : (transpose b).byte r c = b.byte c r := by
  simp [transpose]

@[simp] theorem byte_subBytes (b : Block) (r c : Fin 4) : (subBytes b).byte r c = sBox (b.byte r c) := by
  simp [subBytes]

@[simp] theorem byte_invSubBytes (b : Block) (r c : Fin 4) : (invSubBytes b).byte r c = invSBox (b.byte r c) := by
  simp [invSubBytes]

@[simp] theorem byte_shiftRows (b : Block) (r c : Fin 4) : (shiftRows b).byte r c = b.byte r (c + r) := by
  simp [shiftRows]

@[simp] theorem byte_invShiftRows (b : Block) (r c : Fin 4) : (invShiftRows b).byte r c = b.byte r (c - r) := by
  simp [invShiftRows]

@[simp] theorem col_mixColumns (b : Block) (c : Fin 4) : (mixColumns b).col c = mixColumn (b.col c) := by
  simp [mixColumns]

@[simp] theorem col_invMixColumns (b : Block) (c : Fin 4) : (invMixColumns b).col c = invMixColumn (b.col c) := by
  simp [invMixColumns]

@[simp] theorem lane_subWord (w : Word) (k : Fin 4) : lane (subWord w) k = sBox (lane w k) := by
  simp [subWord]

/-- Lane k of the rotated word is lane k + 1 of the word (rule R211). -/
@[simp] theorem lane_rotWord (w : Word) (k : Fin 4) : lane (rotWord w) k = lane w (k + 1) := by
  match k with
  | 0 => simp [rotWord]
  | 1 => simp [rotWord]
  | 2 => simp [rotWord]
  | 3 => simp [rotWord]

/-! ### The expansion (rule R217) -/

/-- Words before the expansion's position keep their values. -/
theorem ksGet_expandFrom_of_lt (z : KeySize) (n i j : Nat) (ks : Vector Word 60) (hj : j < i) (hi : i + n ≤ 60) :
    ksGet (expandFrom z n i ks) j = ksGet ks j := by
  induction n generalizing i ks with
  | zero => rfl
  | succ n ih =>
    simp only [expandFrom]
    rw [ih (i + 1) _ (by omega) (by omega), ksGet_ksSet _ _ _ _ (by omega), if_neg (by omega)]

/-- Words after the last one the expansion writes keep their values. -/
theorem ksGet_expandFrom_of_ge (z : KeySize) (n i j : Nat) (ks : Vector Word 60) (hj : i + n ≤ j) (hi : i + n ≤ 60) :
    ksGet (expandFrom z n i ks) j = ksGet ks j := by
  induction n generalizing i ks with
  | zero => rfl
  | succ n ih =>
    simp only [expandFrom]
    rw [ih (i + 1) _ (by omega) (by omega), ksGet_ksSet _ _ _ _ (by omega), if_neg (by omega)]

end Sys2Proof.Machine
end

