-- ==== Sys2Proof/Laws/Step.lean ====
section
/-! SUPPORT. What a step can do, said once. -/

namespace Sys2Proof.Machine

/-- With no event left, the engine has the turn (rule R56). -/
theorem step_of_nil {s : State} (h : s.events = []) : step s = engineTurn s := by
  simp [step, h]

/-- Otherwise the first event happens (rule R20). -/
theorem step_of_cons {s : State} {e : Event} {es : List Event} (h : s.events = e :: es) :
    step s = handle e { s with events := es } := by
  simp [step, h]

/-- The engine's turn with a command in flight (rule R56). -/
theorem engineTurn_of_some {s : State} {i : Instr} (h : s.pend = some i) : engineTurn s = exec i s := by
  simp [engineTurn, h]

/-- The engine's turn with none in flight (rule R322). -/
theorem engineTurn_of_none {s : State} (h : s.pend = none) : engineTurn s = .next s := by
  simp [engineTurn, h]

/-- All that the engine's turn can do (rule R56). -/
theorem engineTurn_next {s t : State} (h : engineTurn s = .next t) :
    (s.pend = none ∧ t = s) ∨ (∃ i, s.pend = some i ∧ exec i s = .next t) := by
  cases hp : s.pend with
  | none => rw [engineTurn_of_none hp] at h; exact .inl ⟨rfl, by cases h; rfl⟩
  | some i => rw [engineTurn_of_some hp] at h; exact .inr ⟨i, rfl, h⟩

/-- When it is the engine's turn, the step is that turn, with the event of it, if any, taken off (rule R56). -/
theorem step_of_engineNext {s : State} (h : s.EngineNext) : step s = engineTurn { s with events := s.events.tail } := by
  cases s with
  | mk ksz irqEn done err errCode ksv state opb wa wb ks pend events reply draws =>
    cases events with
    | nil => rfl
    | cons e es =>
      rcases h with h | h
      · cases h
      · cases h; rfl

/-- Every step that answers a next state is one of these: nothing in flight and the engine idle (rule R322), a command completed (rule
R56), a read (rule R82), a write (rule R83) or a reset (rule R320). -/
theorem step_cases {s t : State} (h : step s = .next t) :
    (s.EngineNext ∧ s.pend = none ∧ t = { s with events := s.events.tail }) ∨
    (s.EngineNext ∧ ∃ i, s.pend = some i ∧ exec i { s with events := s.events.tail } = .next t) ∨
    (∃ off size es, s.events = .host (.read off size) :: es ∧ (BusAccess.read off size).Defined ∧
      t = hostRead off { s with events := es }) ∨
    (∃ off size v es, s.events = .host (.write off size v) :: es ∧ (BusAccess.write off size v).Defined ∧
      t = hostWrite off v { s with events := es }) ∨
    (∃ a es, s.events = .reset a :: es ∧ a.bind BusAccess.refusal = none ∧
      t = { State.reset with events := es, reply := resetReply a, draws := s.draws }) := by
  have turn (hn : s.EngineNext) :
      (s.EngineNext ∧ s.pend = none ∧ t = { s with events := s.events.tail }) ∨
      (s.EngineNext ∧ ∃ i, s.pend = some i ∧ exec i { s with events := s.events.tail } = .next t) := by
    rw [step_of_engineNext hn] at h
    rcases engineTurn_next h with ⟨hp, ht⟩ | ⟨i, hp, ht⟩
    · exact .inl ⟨hn, hp, ht⟩
    · exact .inr ⟨hn, i, hp, ht⟩
  cases he : s.events with
  | nil =>
    rw [← he]
    rcases turn (.inl (by rw [he]; rfl)) with h | h
    · exact .inl h
    · exact .inr (.inl h)
  | cons e es =>
    rw [step_of_cons he] at h
    cases e with
    | engine =>
      rw [← he]
      rcases turn (.inr (by rw [he]; rfl)) with h | h
      · exact .inl h
      · exact .inr (.inl h)
    | host a =>
      simp only [handle] at h
      rcases busAccess_cases a { s with events := es } with
        ⟨r, _, hr⟩ | ⟨hd, off, size, rfl, hr⟩ | ⟨hd, off, size, v, rfl, hr⟩
      · rw [hr] at h; cases h
      · rw [hr] at h; cases h
        exact .inr (.inr (.inl ⟨off, size, es, rfl, hd, rfl⟩))
      · rw [hr] at h; cases h
        exact .inr (.inr (.inr (.inl ⟨off, size, v, es, rfl, hd, rfl⟩)))
    | reset a =>
      simp only [handle] at h
      rcases busReset_cases a { s with events := es } with ⟨r, _, hr⟩ | ⟨hn, hr⟩
      · rw [hr] at h; cases h
      · rw [hr] at h; cases h
        exact .inr (.inr (.inr (.inr ⟨a, es, rfl, hn, rfl⟩)))

end Sys2Proof.Machine
end

