-- ==== Sys2Proof/Laws/HostProgram.lean ====
section
/-! SUPPORT. What a sequence of accepted commands does, said once: it runs as the two steps of each command say, and sequences compose. -/

namespace Sys2Proof.Machine

@[simp] theorem acceptedRun_nil (s t : State) : AcceptedRun [] s t ↔ t = s := Iff.rfl

/-- The first command of an accepted run, as rule R129's `C` says it. -/
theorem acceptedRun_cons {i : Instr} {is : List Instr} {s t : State} :
    AcceptedRun (i :: is) s t ↔
      s.pend = none ∧ hostWrite 0x008 (encode i) s = { s with pend := some i } ∧
        ∃ u, exec i { s with pend := some i } = .next u ∧ AcceptedRun is u t := Iff.rfl

/-- One accepted run after another is an accepted run of both lists. -/
theorem acceptedRun_append {is js : List Instr} {s t : State} :
    AcceptedRun (is ++ js) s t ↔ ∃ u, AcceptedRun is s u ∧ AcceptedRun js u t := by
  induction is generalizing s with
  | nil => simp
  | cons i is ih =>
    simp only [List.cons_append, acceptedRun_cons, ih]
    constructor
    · rintro ⟨hp, hw, v, hv, u, hu, hj⟩
      exact ⟨u, ⟨hp, hw, v, hv, hu⟩, hj⟩
    · rintro ⟨u, ⟨hp, hw, v, hv, hu⟩, hj⟩
      exact ⟨hp, hw, v, hv, u, hu, hj⟩

/-- A CMD write on an idle engine is the issue of its word (rule R83). -/
theorem hostWrite_cmd_of_idle {v : Word} {s : State} (hp : s.pend = none) : hostWrite 0x008 v s = issue v s := by
  rw [hostWrite_idle (by simp [State.busy, hp])]
  rfl

/-- An accepted command is run by `runCommand`. -/
theorem runCommand_of_accepted {i : Instr} {s : State} (hp : s.pend = none)
    (hw : hostWrite 0x008 (encode i) s = { s with pend := some i }) : runCommand i s = exec i { s with pend := some i } := by
  rw [runCommand, ← hostWrite_cmd_of_idle hp, hw]
  rfl

/-- An accepted run is what `runCommands` answers. -/
theorem runCommands_of_acceptedRun {is : List Instr} {s t : State} (h : AcceptedRun is s t) :
    runCommands is s = .next t := by
  induction is generalizing s with
  | nil => rw [acceptedRun_nil] at h; rw [h]; rfl
  | cons i is ih =>
    obtain ⟨hp, hw, u, hu, hr⟩ := acceptedRun_cons.mp h
    simp only [runCommands, runCommand_of_accepted hp hw, hu]
    exact ih hr

end Sys2Proof.Machine
end

