-- ==== Sys2Proof/Laws/PerInstr.lean ====
section
/-! SUPPORT. Statements made of every command, one lemma for each constructor. -/

namespace Sys2Proof.Laws

/-- The command's word has its opcode in [7:0], its argument in [15:8] and 0 above (rules R121, R124). -/
def EncodeFields.Statement (i : Instr) : Prop :=
  opcField (encode i) = opcodeOf i ∧ argField (encode i) = i.arg ∧ rsvdField (encode i) = 0

namespace EncodeFields

/-- The fields of every command word. -/
theorem fields (i : Instr) : Statement i :=
  ⟨opcField_commandWord _ _, argField_commandWord _ _, rsvdField_commandWord _ _⟩

theorem nop : Statement .nop := fields _
theorem subb : Statement .subb := fields _
theorem isubb : Statement .isubb := fields _
theorem shrow : Statement .shrow := fields _
theorem ishrow : Statement .ishrow := fields _
theorem mixcol : Statement .mixcol := fields _
theorem imixcol : Statement .imixcol := fields _
theorem addrk (n : BitVec 8) : Statement (.addrk n) := fields _
theorem transp : Statement .transp := fields _
theorem xorb : Statement .xorb := fields _
theorem getcol (n : BitVec 8) : Statement (.getcol n) := fields _
theorem setcol (n : BitVec 8) : Statement (.setcol n) := fields _
theorem getrow (n : BitVec 8) : Statement (.getrow n) := fields _
theorem setrow (n : BitVec 8) : Statement (.setrow n) := fields _
theorem xorw : Statement .xorw := fields _
theorem rotw : Statement .rotw := fields _
theorem subw : Statement .subw := fields _
theorem rcon (n : BitVec 8) : Statement (.rcon n) := fields _
theorem expand : Statement .expand := fields _

end EncodeFields

end Sys2Proof.Laws
end

