-- ==== Sys2Proof/Machine/Assembler.lean ====
section
/-! DEFINITION. The assembler of command text (rule R128), on lists of characters. It is host software: no step reads it. It checks
no F1 range but 255; the engine does, at acceptance. -/

namespace Sys2Proof

/-- The mnemonics of rule R124, in upper case, each with a command of its opcode. -/
def mnemonicTable : List (List Char × Instr) :=
  [(['N', 'O', 'P'], .nop), (['S', 'U', 'B', 'B'], .subb), (['I', 'S', 'U', 'B', 'B'], .isubb),
    (['S', 'H', 'R', 'O', 'W'], .shrow), (['I', 'S', 'H', 'R', 'O', 'W'], .ishrow),
    (['M', 'I', 'X', 'C', 'O', 'L'], .mixcol), (['I', 'M', 'I', 'X', 'C', 'O', 'L'], .imixcol),
    (['A', 'D', 'D', 'R', 'K'], .addrk 0), (['T', 'R', 'A', 'N', 'S', 'P'], .transp), (['X', 'O', 'R', 'B'], .xorb)] ++
  [(['G', 'E', 'T', 'C', 'O', 'L'], .getcol 0), (['S', 'E', 'T', 'C', 'O', 'L'], .setcol 0),
    (['G', 'E', 'T', 'R', 'O', 'W'], .getrow 0), (['S', 'E', 'T', 'R', 'O', 'W'], .setrow 0),
    (['X', 'O', 'R', 'W'], .xorw), (['R', 'O', 'T', 'W'], .rotw), (['S', 'U', 'B', 'W'], .subw),
    (['R', 'C', 'O', 'N'], .rcon 0), (['E', 'X', 'P', 'A', 'N', 'D'], .expand)]

/-- The command a mnemonic names, upper or lower case throughout (rule R128, log 9). -/
def mnemonicLookup (name : List Char) : Option Instr :=
  (mnemonicTable.find? fun row => decide (name = row.1) || decide (name = row.1.map Char.toLower)).map (·.2)

/-- The value of a digit, below the base. -/
def digitValue (base : Nat) (c : Char) : Option Nat :=
  let n := c.toNat
  let v :=
    if 0x30 ≤ n ∧ n ≤ 0x39 then n - 0x30
    else if 0x41 ≤ n ∧ n ≤ 0x46 then n - 0x41 + 10
    else if 0x61 ≤ n ∧ n ≤ 0x66 then n - 0x61 + 10
    else base
  if v < base then some v else none

/-- The value of a row of digits, most significant first, after digits of value `acc`. -/
def digitsValue (base acc : Nat) : List Char → Option Nat
  | [] => some acc
  | c :: cs =>
    match digitValue base c with
    | none => none
    | some d => digitsValue base (acc * base + d) cs

/-- A decimal or 0x-prefixed hexadecimal number of at least one digit (rule R128). -/
def numberValue : List Char → Option Nat
  | [] => none
  | '0' :: 'x' :: cs => if cs.isEmpty then none else digitsValue 16 0 cs
  | cs => digitsValue 10 0 cs

/-- The text before the first space, and the text after it if there is a space. -/
def splitSpace : List Char → List Char × Option (List Char)
  | [] => ([], none)
  | c :: cs =>
    if c = ' ' then ([], some cs)
    else ((c :: (splitSpace cs).1), (splitSpace cs).2)

/-- The command word of a line: an F0 mnemonic takes no operand, an F1 mnemonic one space and a number of at most 255 (rule
R128); `none` where the assembler refuses the line. -/
def assemble (line : List Char) : Option Word :=
  match mnemonicLookup (splitSpace line).1, (splitSpace line).2 with
  | none, _ => none
  | some i, none => if i.argMax.isNone then some (encode i) else none
  | some i, some operand =>
    if i.argMax.isNone then none
    else
      match numberValue operand with
      | none => none
      | some n => if n ≤ 255 then some (commandWord (opcodeOf i) (BitVec.ofNat 8 n)) else none

end Sys2Proof
end

