-- ==== Sys2Proof/Tests/Slice0.lean ====
section
/-! SUPPORT. The model's own tests: decoding from words written out by hand, one step of each command on the vectors of 95_test_vectors.md, and a
witness for the hypotheses of every statement that has some. -/

namespace Sys2Proof.Machine.Tests

/-! ### WellFormed refuses an ill-formed term, one for each check (R124) -/

theorem test_illFormed_addrk : (Instr.addrk 15).wellFormed = false := by decide
theorem test_illFormed_getcol : (Instr.getcol 4).wellFormed = false := by decide
theorem test_illFormed_setcol : (Instr.setcol 4).wellFormed = false := by decide
theorem test_illFormed_getrow : (Instr.getrow 4).wellFormed = false := by decide
theorem test_illFormed_setrow : (Instr.setrow 4).wellFormed = false := by decide
theorem test_illFormed_rcon : (Instr.rcon 11).wellFormed = false := by decide
theorem test_wellFormed_at_limits :
    [Instr.addrk 14, .getcol 3, .setcol 3, .getrow 3, .setrow 3, .rcon 10, .nop].all Instr.wellFormed = true := by decide

/-! ### Decoding, each word written out from R121 and R124: RSVD, ARG, OPC -/

theorem test_decode_nop : decodeTableWord 32 0b0000000000000000_00000000_00000000 = some .nop := by decide
theorem test_decode_subb : decodeTableWord 32 0b0000000000000000_00000000_00000001 = some .subb := by decide
theorem test_decode_isubb : decodeTableWord 32 0b0000000000000000_00000000_00000010 = some .isubb := by decide
theorem test_decode_shrow : decodeTableWord 32 0b0000000000000000_00000000_00000011 = some .shrow := by decide
theorem test_decode_ishrow : decodeTableWord 32 0b0000000000000000_00000000_00000100 = some .ishrow := by decide
theorem test_decode_mixcol : decodeTableWord 32 0b0000000000000000_00000000_00000101 = some .mixcol := by decide
theorem test_decode_imixcol : decodeTableWord 32 0b0000000000000000_00000000_00000110 = some .imixcol := by decide
theorem test_decode_addrk : decodeTableWord 32 0b0000000000000000_00001110_00000111 = some (.addrk 14) := by decide
theorem test_decode_transp : decodeTableWord 32 0b0000000000000000_00000000_00010000 = some .transp := by decide
theorem test_decode_xorb : decodeTableWord 32 0b0000000000000000_00000000_00010001 = some .xorb := by decide
theorem test_decode_getcol : decodeTableWord 32 0b0000000000000000_00000010_00010010 = some (.getcol 2) := by decide
theorem test_decode_setcol : decodeTableWord 32 0b0000000000000000_00000001_00010011 = some (.setcol 1) := by decide
theorem test_decode_getrow : decodeTableWord 32 0b0000000000000000_00000001_00010100 = some (.getrow 1) := by decide
theorem test_decode_setrow : decodeTableWord 32 0b0000000000000000_00000011_00010101 = some (.setrow 3) := by decide
theorem test_decode_xorw : decodeTableWord 32 0b0000000000000000_00000000_00010110 = some .xorw := by decide
theorem test_decode_rotw : decodeTableWord 32 0b0000000000000000_00000000_00100000 = some .rotw := by decide
theorem test_decode_subw : decodeTableWord 32 0b0000000000000000_00000000_00100001 = some .subw := by decide
theorem test_decode_rcon : decodeTableWord 32 0b0000000000000000_00001010_00100010 = some (.rcon 10) := by decide
theorem test_decode_expand : decodeTableWord 32 0b0000000000000000_00000000_00110000 = some .expand := by decide

/-- The word alone is refused: reserved OPC, RSVD, ARG on an F0 command, ARG out of range (R280). -/
theorem test_decode_refusals :
    [decodeTableWord 32 0x00000008, decodeTableWord 32 0x00010001, decodeTableWord 32 0x00000101, decodeTableWord 32 0x00000412] =
      [none, none, none, none] := by decide

/-! ### The assembler (R128's examples and refusals) -/

theorem test_assemble :
    [assemble ['S', 'U', 'B', 'B'], assemble ['A', 'D', 'D', 'R', 'K', ' ', '7'],
      assemble ['G', 'E', 'T', 'C', 'O', 'L', ' ', '0', 'x', '2'], assemble ['r', 'c', 'o', 'n', ' ', '1']] =
    [some 0x00000001, some 0x00000707, some 0x00000212, some 0x00000122] := by decide
theorem test_assemble_refusals :
    [assemble ['S', 'U', 'B', 'B', ' ', '1'], assemble ['A', 'D', 'D', 'R', 'K'],
      assemble ['A', 'D', 'D', 'R', 'K', ' ', '2', '5', '6']] = [none, none, none] := by decide

/-! ### One step of each command -/

/-- The next state of an outcome. -/
def nextOf (o : Host.Outcome State Fault Refusal) : Option State :=
  match o with
  | .next t => some t
  | .fault _ => none
  | .refused _ => none

/-- The block whose flat byte i is i, the input I of section 4. -/
def blockI : Block := ⟨0x00010203, 0x04050607, 0x08090a0b, 0x0c0d0e0f⟩

/-- A state with a command in flight on given contents. -/
def running (i : Instr) (b : Block) (wa wb : Word) : State := { State.reset with pend := some i, state := b, wa := wa, wb := wb }

/-- STATE, WA, DONE and BUSY after one step. -/
def after (s : State) : Option (Block × Word × Bool × Bool) :=
  (nextOf (step s)).map fun t => (t.state, t.wa, t.done, t.busy)

theorem test_nop : after (running .nop blockI 7 0) = some (blockI, 7, true, false) := by decide
theorem test_transp :
    after (running .transp blockI 7 0) = some (⟨0x0004080c, 0x0105090d, 0x02060a0e, 0x03070b0f⟩, 7, true, false) := by decide
theorem test_xorb :
    after { running .xorb blockI 7 0 with opb := ⟨0xffffffff, 0, 0xffffffff, 0⟩ } =
      some (⟨0xfffefdfc, 0x04050607, 0xf7f6f5f4, 0x0c0d0e0f⟩, 7, true, false) := by decide
theorem test_getcol : after (running (.getcol 2) blockI 7 0) = some (blockI, 0x08090a0b, true, false) := by decide
theorem test_setcol :
    after (running (.setcol 1) blockI 0xdeadbeef 0) =
      some (⟨0x00010203, 0xdeadbeef, 0x08090a0b, 0x0c0d0e0f⟩, 0xdeadbeef, true, false) := by decide
theorem test_getrow : after (running (.getrow 1) blockI 7 0) = some (blockI, 0x0105090d, true, false) := by decide
theorem test_setrow :
    after (running (.setrow 3) blockI 0xa0a1a2a3 0) =
      some (⟨0x000102a0, 0x040506a1, 0x08090aa2, 0x0c0d0ea3⟩, 0xa0a1a2a3, true, false) := by decide
theorem test_xorw : after (running .xorw blockI 0x8b84eb01 0x2b7e1516) = some (blockI, 0xa0fafe17, true, false) := by decide
theorem test_rotw : after (running .rotw blockI 0x09cf4f3c 0) = some (blockI, 0xcf4f3c09, true, false) := by decide
theorem test_subw : after (running .subw blockI 0xcf4f3c09 0) = some (blockI, 0x8a84eb01, true, false) := by decide
theorem test_rcon : after (running (.rcon 1) blockI 0x8a84eb01 0) = some (blockI, 0x8b84eb01, true, false) := by decide
theorem test_rcon_limit : after (running (.rcon 10) blockI 0 0) = some (blockI, 0x36000000, true, false) := by decide

set_option maxRecDepth 20000 in
/-- V3.12: EXPAND of the all-zero key straight after reset. -/
theorem test_expand_zero_key :
    (nextOf (step (running .expand blockI 0 0))).map (fun t => (ksGet t.ks 3, ksGet t.ks 4, ksGet t.ks 43, ksGet t.ks 44, t.ksv)) =
      some (0, 0x62636363, 0x6f8f188e, 0, true) := by decide

/-- V3.8: word 12 of the 256-bit example takes the SubWord-only branch. -/
theorem test_expand_256_subword_branch :
    expandTemp .k256 12 0x2067fcde ^^^ 0x1f352c07 = 0xa8b09c1a := by decide

theorem test_subb :
    after (running .subb blockI 7 0) = some (⟨0x637c777b, 0xf26b6fc5, 0x3001672b, 0xfed7ab76⟩, 7, true, false) := by decide
theorem test_isubb :
    after (running .isubb blockI 7 0) = some (⟨0x52096ad5, 0x3036a538, 0xbf40a39e, 0x81f3d7fb⟩, 7, true, false) := by decide
theorem test_shrow :
    after (running .shrow blockI 7 0) = some (⟨0x00050a0f, 0x04090e03, 0x080d0207, 0x0c01060b⟩, 7, true, false) := by decide
theorem test_ishrow :
    after (running .ishrow blockI 7 0) = some (⟨0x000d0a07, 0x04010e0b, 0x0805020f, 0x0c090603⟩, 7, true, false) := by decide
theorem test_mixcol :
    after (running .mixcol ⟨0xdb135345, 0xf20a225c, 0xd4d4d4d5, 0x2d26314c⟩ 7 0) =
      some (⟨0x8e4da1bc, 0x9fdc589d, 0xd5d5d7d6, 0x4d7ebdf8⟩, 7, true, false) := by decide
theorem test_imixcol :
    after (running .imixcol ⟨0xdb135345, 0xf20a225c, 0xd4d4d4d5, 0x2d26314c⟩ 7 0) =
      some (⟨0x32a41d55, 0xaec36982, 0xddd9dfda, 0xa05050d6⟩, 7, true, false) := by decide

/-- The FIPS-197 B key in KS[4..7] as round key 1 takes B3 to B4 (43_round_transform.md). -/
theorem test_addrk :
    after { running (.addrk 1) ⟨0x046681e5, 0xe0cb199a, 0x48f8d37a, 0x2806264c⟩ 7 0 with
        ks := ksSet (ksSet (ksSet (ksSet State.reset.ks 4 0xa0fafe17) 5 0x88542cb1) 6 0x23a33939) 7 0x2a6c7605 } =
      some (⟨0xa49c7ff2, 0x689f352b, 0x6b5bea43, 0x026a5049⟩, 7, true, false) := by decide

/-! ### Tables -/

theorem test_tables : (sBox 0x53, sBox 0x00, sBox 0xff, invSBox 0xed, invSBox 0xff) = (0xed, 0x63, 0x16, 0x53, 0x7d) := by decide
theorem test_field : (gmul 0x57 0x13, gmul 0x57 0x83, xtime 0x80, xtime 0xff) = (0xfe, 0xc1, 0x1b, 0xe5) := by decide

/-! ### Host accesses, errors, interrupt and reset (section 6) -/

/-- STATUS after one step on a host write of a word to an offset. -/
def statusAfterWrite (off : BitVec 9) (v : Word) (s : State) : Option Word :=
  (nextOf (step { s with events := hostWR off v })).map State.statusValue

theorem test_V6_1_addrk_without_schedule : statusAfterWrite 0x008 0x00000007 State.reset = some 0x00000404 := by decide
theorem test_V6_5_addrk_above_range :
    statusAfterWrite 0x008 0x00000B07 { State.reset with done := true, ksv := true } = some 0x0000030E := by decide
theorem test_V6_9_reserved_key_size :
    statusAfterWrite 0x000 0x3 { State.reset with ksv := true } = some 0x0000060C := by decide
theorem test_V6_15_key_size_change :
    statusAfterWrite 0x000 0x1 { State.reset with done := true, ksv := true } = some 0x00000002 := by decide
theorem test_V6_18_expand_accepted : statusAfterWrite 0x008 0x00000030 State.reset = some 0x00000001 := by decide
theorem test_V6_20_busy_write_dropped :
    (nextOf (step { running .expand Block.zero 0 0 with events := hostWR 0x010 0x12345678 })).map
      (fun t => (t.statusValue, t.state)) = some (0x00000505, Block.zero) := by decide
theorem test_V6_19_busy_read_of_WB_is_exact :
    (nextOf (step { running .expand Block.zero 0 5 with events := hostRD 0x034 })).map (fun t => (t.reply, t.draws)) =
      some (some 5, 0) := by decide
theorem test_busy_read_of_STATE_draws :
    (nextOf (step { running .expand Block.zero 0 5 with events := hostRD 0x010 })).map State.draws = some 1 := by decide
theorem test_V6_25_interrupt :
    (nextOf (step { running .nop Block.zero 0 0 with irqEn := true })).map State.irq = some true := by decide
theorem test_V6_31_reset :
    nextOf (step { running .expand blockI 5 6 with irqEn := true, err := true, errCode := .busy, events := [.reset none] }) =
      some State.reset := by decide
theorem test_read_ID : (nextOf (step { State.reset with events := hostRD 0x00C })).map State.reply = some (some 0x41455301) := by
  decide
theorem test_read_while_reset :
    (nextOf (step { running .nop blockI 5 6 with events := [.reset (some (.read 0x00C 0b10))] })).map State.reply =
      some (some 0) := by decide
theorem test_write_clears_KSV :
    (nextOf (step { State.reset with ksv := true, events := hostWR 0x1EC 9 })).map (fun t => (t.ksv, ksGet t.ks 59)) =
      some (false, 9) := by decide

/-- Each refusal and the fault can be reached. -/
theorem test_refusal_subWord : step { State.reset with events := [.host (.read 0x010 0b00)] } = .refused .subWordAccess := rfl
theorem test_refusal_misaligned :
    step { State.reset with events := [.host (.write 0x011 0b10 0)] } = .refused .misalignedAccess := rfl
theorem test_fault_argument : step { State.reset with pend := some (.getcol 4) } = .fault .argOutOfRange := rfl

/-- A placed word is what the next step runs, and a placed word that is no command goes to CMD. -/
theorem test_withFetchWord_runs :
    nextOf (step (State.reset.withFetchWord 32 0x20)) = nextOf (exec .rotw State.reset) := by decide
theorem test_withFetchWord_no_command :
    (nextOf (step (State.reset.withFetchWord 32 0x08))).map State.errCode = some .opc := by decide

/-- The idle engine waits (R322). -/
theorem test_idle : nextOf (step State.reset) = some State.reset := by decide

/-- The cipher sequences have the lengths of R270 and R271. -/
theorem test_cipher_lengths :
    ((forwardCipher .k128).length, (forwardCipher .k192).length, (forwardCipher .k256).length, (inverseCipher .k128).length,
      (inverseCipher .k192).length, (inverseCipher .k256).length) = (40, 48, 56, 40, 48, 56) := by decide

/-! ### Witnesses: a concrete state and operands meeting every hypothesis of each statement that has some -/

/-- An idle engine with ERR = 1. -/
def failed : State := { State.reset with err := true, errCode := .opc }

/-- An idle engine with a schedule marked valid. -/
def scheduled : State := { State.reset with ksv := true }

/-- The last command word of each legal range is well formed (DecodeOfEncode, GoodCommandIsAccepted). -/
theorem witness_DecodeOfEncode : (Instr.addrk 14).wellFormed = true ∧ (Instr.rcon 10).wellFormed = true := by decide

theorem witness_EncodeOfDecode : decode 0x00000E07 = .ok (.addrk 14) := rfl

/-- Both ends of each reserved range, on an idle engine. -/
theorem witness_ReservedOpcodesRecordEOpc :
    State.reset.pend = none ∧
    [0x08, 0x0F, 0x17, 0x1F, 0x23, 0x2F, 0x31, 0xFF].all (fun w => (decodeTableWord 32 w).isNone) = true := by decide

theorem witness_CommandAcceptance : State.reset.pend = none ∧ failed.pend = none := by decide

theorem witness_GoodCommandIsAccepted :
    (Instr.addrk 10).wellFormed = true ∧ scheduled.pend = none ∧ scheduled.err = false ∧
    ∀ n, Instr.addrk 10 = .addrk n → n.toNat ≤ scheduled.ksz.nr ∧ scheduled.ksv = true := by
  refine ⟨by decide, by decide, by decide, ?_⟩
  intro n h; cases h; decide

theorem witness_ErrorPriorityExamples :
    State.reset.pend = none ∧ State.reset.err = false ∧ State.reset.ksz = .k128 ∧ State.reset.ksv = false := by decide

/-- The three cases of FirstErrorIsKept: a step that keeps the error, the clearing write, a reset. -/
theorem witness_FirstErrorIsKept :
    (∃ t, step failed = .next t) ∧ (∃ t, step { failed with events := hostWR 0x004 0x4 } = .next t) ∧
    (∃ t, step { failed with events := [.reset none] } = .next t) ∧ failed.err = true :=
  ⟨⟨_, rfl⟩, ⟨_, rfl⟩, ⟨_, rfl⟩, rfl⟩

theorem witness_ErrorDropsCommandsOnly : failed.err = true ∧ failed.pend = none := by decide

/-- An offset at the ends of each clause of BusyWritesAreDropped, a command in flight and its turn answering a next state. -/
theorem witness_BusyWritesAreDropped :
    (running .nop blockI 0 0).pend = some .nop ∧ (∃ t, engineTurn (running .nop blockI 0 0) = .next t) ∧
    [0x000, 0x008, 0x010, 0x034, 0x100, 0x1EC].all
      (fun o => (BitVec.ofNat 9 o).toNat % 4 == 0 && (regAt (BitVec.ofNat 9 o)).lockedWhileBusy) = true ∧
    [0x004, 0x00C, 0x038, 0x0FC, 0x1F0, 0x1FC].all
      (fun o => (BitVec.ofNat 9 o).toNat % 4 == 0 && !(regAt (BitVec.ofNat 9 o)).lockedWhileBusy) = true :=
  ⟨rfl, ⟨_, rfl⟩, by decide, by decide⟩

/-- The clauses of CtrlWriteEffect: idle with 11 and with 10 written, and in flight. -/
theorem witness_CtrlWriteEffect :
    State.reset.pend = none ∧ (0x3 : Word).extractLsb' 0 2 = 3 ∧ (0x2 : Word).extractLsb' 0 2 ≠ 3 ∧
    (running .nop blockI 0 0).pend ≠ none := by decide

theorem witness_InterruptLevel :
    (∃ t, exec .nop { State.reset with irqEn := true } = .next t) ∧ scheduled.pend = none ∧ failed.err = true ∧
    (0x10 : Word).getLsbD 4 = true ∧ (0x6 : Word).getLsbD 1 = true ∧ (0x6 : Word).getLsbD 2 = true ∧
    (0x6 : Word).getLsbD 4 = false ∧ (∃ t, busReset none failed = .next t) :=
  ⟨⟨_, rfl⟩, rfl, rfl, rfl, rfl, rfl, rfl, ⟨_, rfl⟩⟩

/-- The ends of each range of the map (HostReadInFull, UnmappedOffsets, DataRegisterWrites, KeyScheduleWrite, ReadReturnsLastWrite). -/
theorem witness_HostReadInFull :
    [0x000, 0x004, 0x008, 0x00C, 0x010, 0x01C, 0x020, 0x02C, 0x030, 0x034, 0x038, 0x0FC, 0x100, 0x1EC, 0x1F0, 0x1FC].all
      (fun o => (BitVec.ofNat 9 o).toNat % 4 == 0) = true ∧
    [0x000, 0x004, 0x008, 0x00C, 0x010, 0x01C, 0x020, 0x02C, 0x030, 0x034, 0x038, 0x0FC, 0x100, 0x1EC, 0x1F0, 0x1FC].map
      (fun o => regAt (BitVec.ofNat 9 o)) =
      [.ctrl, .status, .cmd, .id, .state 0, .state 3, .opb 0, .opb 3, .wa, .wb, .unmapped, .unmapped, .ks 0, .ks 59,
        .unmapped, .unmapped] ∧ State.reset.pend = none := by decide

theorem witness_DataRegisterWrites : State.reset.pend = none := rfl

theorem witness_KeyScheduleWrite : State.reset.pend = none := rfl

theorem witness_UnmappedOffsets :
    (0x038 : BitVec 9).toNat % 4 = 0 ∧ 0x038 ≤ (0x038 : BitVec 9).toNat ∧ (0x0FC : BitVec 9).toNat ≤ 0x0FC ∧
    0x1F0 ≤ (0x1F0 : BitVec 9).toNat := by decide

/-- Each clause of OnlyAlignedWordAccesses: a defined access, a narrow one and a misaligned one. -/
theorem witness_OnlyAlignedWordAccesses :
    (∃ t, step { State.reset with events := hostRD 0x1EC } = .next t) ∧
    (∃ t, step { State.reset with events := hostWR 0x000 0 } = .next t) ∧
    step { State.reset with events := [.host (.read 0x000 0b01)] } = .refused .subWordAccess ∧
    step { State.reset with events := [.host (.write 0x003 0b10 0)] } = .refused .misalignedAccess :=
  ⟨⟨_, rfl⟩, ⟨_, rfl⟩, rfl, rfl⟩

theorem witness_ReadReturnsLastWrite : State.reset.pend = none ∧ (Reg.ks 59).offset = some 0x1EC ∧ Reg.ks 59 ≠ .ctrl := by
  decide

theorem witness_StepRunsTheCommandInFlight :
    (running .subb blockI 0 0).EngineNext ∧ (running .subb blockI 0 0).pend = some .subb ∧ State.reset.EngineNext ∧
    State.reset.pend = none ∧ ({ State.reset with events := [.engine] } : State).EngineNext :=
  ⟨.inl rfl, rfl, .inl rfl, rfl, .inr rfl⟩

theorem witness_CommandIsIssueThenCompletion :
    State.reset.pend = none ∧
    (∃ t, core.run 2 { State.reset with events := [.host (.write 0x008 0b10 (encode .subb)), .engine] } = .next t) :=
  ⟨rfl, ⟨_, rfl⟩⟩

/-- A read and a write step while a command is in flight. -/
theorem witness_InFlightStateIsFrozen :
    (∃ t, step { running .nop blockI 0 0 with events := [.host (.write 0x010 0b10 5)] } = .next t) ∧
    (∃ t, step { running .nop blockI 0 0 with events := [.host (.read 0x004 0b10)] } = .next t) :=
  ⟨⟨_, rfl⟩, ⟨_, rfl⟩⟩

theorem witness_InFlightCommandCompletes :
    (running (.addrk 0) blockI 0 0).pend = some (.addrk 0) ∧ (Instr.addrk 0).wellFormed = true ∧
    ∀ e ∈ hostWR 0x010 5 ++ hostRD 0x004, ∃ a : BusAccess, e = .host a ∧ a.Defined := by
  refine ⟨rfl, rfl, ?_⟩
  intro e he
  simp only [hostWR, hostRD, List.mem_append, List.mem_singleton] at he
  rcases he with rfl | rfl
  · exact ⟨_, rfl, rfl⟩
  · exact ⟨_, rfl, rfl⟩

/-- A command that writes STATE, one that writes WA and the one that writes KS, each completing. -/
theorem witness_CommandsWriteOnlyTheirRegisters :
    (∃ t, exec .subb State.reset = .next t ∧ t.state ≠ State.reset.state) ∧
    (∃ t, exec .subw State.reset = .next t ∧ t.wa ≠ State.reset.wa) ∧
    (∃ t, exec .expand State.reset = .next t ∧ t.ksv ≠ State.reset.ksv) :=
  ⟨⟨_, rfl, by decide⟩, ⟨_, rfl, by decide⟩, ⟨_, rfl, by decide⟩⟩

/-- KSV rises by EXPAND, and falls by a reset, by a change of KSZ and by a KS write. -/
theorem witness_KsvChanges :
    (∃ t, step (running .expand blockI 0 0) = .next t ∧ t.ksv = true) ∧
    (∃ t, step { scheduled with events := [.reset none] } = .next t ∧ t.ksv = false) ∧
    (∃ t, step { scheduled with events := hostWR 0x000 0x2 } = .next t ∧ t.ksv = false ∧ t.ksz ≠ scheduled.ksz) ∧
    (∃ t, step { scheduled with events := hostWR 0x100 0 } = .next t ∧ t.ksv = false) ∧ scheduled.pend = none :=
  ⟨⟨_, rfl, rfl⟩, ⟨_, rfl, rfl⟩, ⟨_, rfl, rfl, by decide⟩, ⟨_, rfl, rfl⟩, rfl⟩

theorem witness_ResetFromAnyState :
    ∀ b, some (BusAccess.read 0x010 0b10) = some b → b.Defined := by
  intro b h; cases h; rfl

/-- A state of the invariant with a command in flight. -/
theorem witness_invariant_in_flight : (running .expand blockI 0 0).Inv where
  errorConsistent := ⟨fun _ => rfl, fun _ => rfl⟩
  pendAccepted := by intro i h; cases h; exact ⟨rfl, rfl⟩
  scheduleValid := by intro h; cases h

/-- The hypotheses of StepKeepsErrorConsistent, StepKeepsPendAccepted, StepKeepsScheduleValid and MachineNeverStops. -/
theorem witness_MachineNeverStops :
    (running .expand blockI 0 0).Inv ∧ (running .expand blockI 0 0).NextAccessDefined ∧
    (∃ t, step (running .expand blockI 0 0) = .next t) :=
  ⟨witness_invariant_in_flight, trivial, ⟨_, rfl⟩⟩

/-- The invariants' hypotheses with something in them to keep: an error recorded, and an accepted write on an idle engine. -/
theorem witness_StepKeepsErrorConsistent : failed.ErrorConsistent ∧ (∃ t, step failed = .next t) :=
  ⟨⟨(fun h => nomatch h), (fun h => nomatch h)⟩, ⟨_, rfl⟩⟩

theorem witness_StepKeepsPendAccepted :
    State.reset.PendAccepted ∧ (∃ t, step { State.reset with events := hostWR 0x008 0x1 } = .next t ∧ t.pend = some .subb) :=
  ⟨(fun _ h => nomatch h), ⟨_, rfl, rfl⟩⟩

/-- The expansion of the all-zero key is its own expansion. -/
theorem test_expand_twice :
    keyExpansion .k128 (keyExpansion .k128 State.reset.ks) = keyExpansion .k128 State.reset.ks := by decide +kernel

/-- A schedule that is valid with KSV = 1. -/
theorem witness_StepKeepsScheduleValid :
    ({ scheduled with ks := keyExpansion .k128 State.reset.ks } : State).ScheduleValid ∧
    ({ scheduled with ks := keyExpansion .k128 State.reset.ks } : State).ksv = true := by
  refine ⟨?_, rfl⟩
  unfold State.ScheduleValid
  intro _
  exact test_expand_twice

theorem witness_BlockAlgebraTouchesNoSchedule :
    opcodeOf (.setrow 3) ∈ ([0x00, 0x10, 0x11, 0x12, 0x13, 0x14, 0x15, 0x16] : List (BitVec 8)) ∧
    (∃ t, exec (.setrow 3) State.reset = .next t) ∧ Instr.setrow 3 ≠ .xorb ∧
    opcodeOf .nop = 0x00 ∧ (∃ t, exec .nop State.reset = .next t) ∧
    (∃ t, exec (.setcol 3) State.reset = .next t) ∧ (0 : Fin 4).val ≠ (3 : BitVec 8).toNat ∧
    opcodeOf (.getrow 3) ∈ ([0x12, 0x14, 0x16] : List (BitVec 8)) ∧ (∃ t, exec (.getrow 3) State.reset = .next t) :=
  ⟨by decide, ⟨_, rfl⟩, by decide, rfl, ⟨_, rfl⟩, ⟨_, rfl⟩, by decide, by decide, ⟨_, rfl⟩⟩

/-- The ends of ExpandResult's ranges for every key size, and the index of each branch. -/
theorem witness_ExpandResult :
    [KeySize.k128, .k192, .k256].all (fun z => z.nk < z.kslen && z.kslen ≤ 60 && z.nk % z.nk == 0) = true ∧
    6 < KeySize.k256.nk ∧ 12 % KeySize.k256.nk = 4 ∧ KeySize.k128.kslen ≤ 44 := by decide

theorem witness_ExpandReadsOnlyTheKey : ∃ t, exec .expand State.reset = .next t := ⟨_, rfl⟩

/-- An index of each of the three sequences of WordCommandsComputeTheSchedule, on an idle engine. -/
theorem witness_WordCommandsComputeTheSchedule :
    State.reset.pend = none ∧ State.reset.err = false ∧ State.reset.ksz.nk ≤ 4 ∧ 43 < State.reset.ksz.kslen ∧
    4 % KeySize.k128.nk = 0 ∧ KeySize.k256.nk = 8 ∧ 12 % 8 = 4 ∧ 43 % KeySize.k128.nk ≠ 0 := by decide

theorem witness_ShiftRowsResults : (3 : Fin 4).val = ((1 : Fin 4).val + (2 : Fin 4).val) % 4 := by decide

/-- The last round of every key size. -/
theorem witness_AddRoundKeyResult :
    (10 : BitVec 8).toNat ≤ KeySize.k128.nr ∧ (12 : BitVec 8).toNat ≤ KeySize.k192.nr ∧ (14 : BitVec 8).toNat ≤ KeySize.k256.nr := by
  decide

theorem witness_InversePairs : (14 : BitVec 8).toNat ≤ 14 := by decide

theorem witness_CipherRoundTrip : scheduled.pend = none ∧ scheduled.err = false ∧ scheduled.ksv = true := by decide

theorem witness_ArgOutOfRangeFaults : (Instr.getcol 4).wellFormed = false := by decide

end Sys2Proof.Machine.Tests
end

section
/-! SUPPORT. What a host access needs to be defined and which register it reaches, what each access and each command does to
KSV (rule R53), and the registers CTRL, STATUS and ID (rules R45 to R50), then the statements about the state (10_state.md). -/

namespace Sys2Proof.Machine

/-! ### Defined accesses and the registers they reach (rules R81, R86) -/

/-- The access of rule R86 in numbers: 32 bits wide at a multiple of 4. -/
theorem defined_iff (a : BusAccess) : a.Defined ↔ a.size = 0b10 ∧ a.offset.toNat % 4 = 0 := by
  have aligned : a.offset.extractLsb' 0 2 = 0#2 ↔ a.offset.toNat % 4 = 0 := by
    rw [← BitVec.toNat_inj]; simp
  unfold BusAccess.Defined BusAccess.refusal
  by_cases hs : a.size = 2#2 <;> simp [hs, aligned]

/-- Each aligned offset of the window that is mapped is the offset of its register: the converse of `regAt_offset`. -/
theorem offset_regAt {off : BitVec 9} (ha : off.toNat % 4 = 0) (hm : regAt off ≠ .unmapped) :
    (regAt off).offset = some off := by
  revert hm
  fun_cases regAt off <;> intro hm
  case case10 => exact absurd rfl hm
  all_goals
    simp only [Reg.offset, Option.some.injEq]
    bv_omega

/-- An aligned access reaches a register at no offset but the register's own. -/
theorem eq_offset_of_regAt {off o : BitVec 9} {r : Reg} (ha : off.toNat % 4 = 0) (hr : regAt off = r)
    (ho : r.offset = some o) : off = o := by
  have hm : regAt off ≠ .unmapped := by
    rw [hr]; rintro rfl; cases ho
  have := offset_regAt ha hm
  rw [hr, ho] at this
  exact (Option.some.inj this).symm

/-- A step on a write that answers a next state is that write (rule R83). -/
theorem step_write {s t : State} {off : BitVec 9} {size : BitVec 2} {v : Word} {es : List Event}
    (he : s.events = .host (.write off size v) :: es) (h : step s = .next t) :
    t = hostWrite off v { s with events := es } := by
  rw [step_of_cons he] at h
  simp only [handle, busAccess] at h
  split at h <;> cases h
  rfl

/-- A step on a reset that answers a next state is that reset (rule R320). -/
theorem step_reset {s t : State} {a : Option BusAccess} {es : List Event}
    (he : s.events = .reset a :: es) (h : step s = .next t) :
    t = { State.reset with events := es, reply := resetReply a, draws := s.draws } := by
  rw [step_of_cons he] at h
  rcases busReset_cases a { s with events := es } with ⟨_, _, hr⟩ | ⟨_, hr⟩ <;>
    cases hr.symm.trans h
  rfl

/-! ### What changes KSV (rule R53) -/

/-- No command but EXPAND writes KS or KSV (rules R52, R53). -/
theorem exec_keeps_schedule {i : Instr} {s t : State} (h : exec i s = .next t) (hi : i ≠ .expand) :
    t.ks = s.ks ∧ t.ksv = s.ksv := by
  cases i
  case expand => exact absurd rfl hi
  case addrk n => obtain ⟨_, _, rfl⟩ := completeAt_next h; exact ⟨rfl, rfl⟩
  case getcol n => obtain ⟨_, _, rfl⟩ := completeAt_next h; exact ⟨rfl, rfl⟩
  case setcol n => obtain ⟨_, _, rfl⟩ := completeAt_next h; exact ⟨rfl, rfl⟩
  case getrow n => obtain ⟨_, _, rfl⟩ := completeAt_next h; exact ⟨rfl, rfl⟩
  case setrow n => obtain ⟨_, _, rfl⟩ := completeAt_next h; exact ⟨rfl, rfl⟩
  case rcon n => obtain ⟨_, _, rfl⟩ := completeAt_next h; exact ⟨rfl, rfl⟩
  all_goals cases h; exact ⟨rfl, rfl⟩

/-- The completion of EXPAND sets KSV (rule R216). -/
theorem exec_expand_ksv {s t : State} (h : exec .expand s = .next t) : t.ksv = true := by
  cases h; rfl

/-- A CTRL write keeps KSV exactly as far as it keeps KSZ (rule R47). -/
theorem ctrlWrite_ksv (v : Word) (s : State) :
    (ctrlWrite v s).ksv = (s.ksv && decide ((ctrlWrite v s).ksz = s.ksz)) := by
  unfold ctrlWrite
  cases KeySize.ofBits (v.extractLsb' 0 2) with
  | none => simp
  | some z => by_cases hz : z = s.ksz <;> simp [hz]

/-- A STATUS write on the three fields it may clear (rule R49). -/
theorem statusWrite_eq (v : Word) (s : State) :
    statusWrite v s = { s with
      done := s.done && !v.getLsbD 1
      err := s.err && !v.getLsbD 2
      errCode := if v.getLsbD 2 then .noError else s.errCode } := by
  unfold statusWrite clearError
  cases v.getLsbD 1 <;> cases v.getLsbD 2 <;> simp

/-- A CMD write runs nothing, so it leaves KSV (rules R280, R53). -/
@[simp] theorem issue_ksv (v : Word) (s : State) : (issue v s).ksv = s.ksv := by
  rcases issue_cases v s with ⟨_, h⟩ | ⟨_, _, _, h⟩ | ⟨_, _, _, _, h⟩ <;> rw [h]

/-- A host write to CTRL keeps KSV exactly as far as it keeps KSZ, a command in flight or not (rules R47, R285). -/
theorem hostWrite_ksv_of_ctrl {off : BitVec 9} {v : Word} {s : State} (hr : regAt off = .ctrl) :
    (hostWrite off v s).ksv = (s.ksv && decide ((hostWrite off v s).ksz = s.ksz)) := by
  cases hb : s.busy with
  | true => rw [hostWrite_dropped hb (by rw [hr]; rfl)]; simp
  | false => rw [hostWrite_idle hb, hr]; exact ctrlWrite_ksv v s

/-- A host write to KS keeps KSV only where it is dropped (rules R84, R285). -/
theorem hostWrite_ksv_of_ks {off : BitVec 9} {v : Word} {s : State} {i : Fin 60} (hr : regAt off = .ks i) :
    (hostWrite off v s).ksv = (s.ksv && s.busy) := by
  cases hb : s.busy with
  | true => rw [hostWrite_dropped hb (by rw [hr]; rfl)]; simp
  | false => rw [hostWrite_idle hb, hr]; simp [writeReg]

/-- A host write to any other offset leaves KSV (rule R53). -/
theorem hostWrite_ksv_of_other {off : BitVec 9} {v : Word} {s : State} (hc : regAt off ≠ .ctrl)
    (hk : ∀ i, regAt off ≠ .ks i) : (hostWrite off v s).ksv = s.ksv := by
  unfold hostWrite
  split
  · simp
  · cases hr : regAt off with
    | ctrl => exact absurd hr hc
    | ks i => exact absurd hr (hk i)
    | cmd => exact issue_ksv v s
    | status => simp [writeReg, statusWrite_eq]
    | _ => rfl

/-- What a defined write that changes KSV is: a CTRL write that changes KSZ, or a KS write with none in flight; KSV falls (rule R53). -/
theorem hostWrite_ksv_ne {off : BitVec 9} {v : Word} {s : State} (ha : off.toNat % 4 = 0)
    (h : (hostWrite off v s).ksv ≠ s.ksv) :
    (hostWrite off v s).ksv = false ∧
      ((off = 0x000 ∧ (hostWrite off v s).ksz ≠ s.ksz) ∨
        (s.pend = none ∧ ∃ i : Fin 60, off = BitVec.ofNat 9 (0x100 + 4 * i.val))) := by
  by_cases hc : regAt off = .ctrl
  · have hk := hostWrite_ksv_of_ctrl (v := v) (s := s) hc
    have hz : (hostWrite off v s).ksz ≠ s.ksz := fun hz => h (by rw [hk]; simp [hz])
    exact ⟨by rw [hk]; simp [hz], .inl ⟨eq_offset_of_regAt ha hc rfl, hz⟩⟩
  by_cases hks : ∃ i, regAt off = .ks i
  · obtain ⟨i, hi⟩ := hks
    have hk := hostWrite_ksv_of_ks (v := v) (s := s) hi
    have hb : s.busy = false := by
      cases hb : s.busy with
      | true => exact absurd (by rw [hk, hb]; simp) h
      | false => rfl
    exact ⟨by rw [hk, hb]; simp, .inr ⟨by simpa [State.busy] using hb, i, eq_offset_of_regAt ha hi rfl⟩⟩
  · exact absurd (hostWrite_ksv_of_other hc (by simpa using hks)) h

/-! ### The statements -/

/-- Settles O30: the change of KSV in each kind of step (`step_cases`), and the four events that set or clear it, one by one. -/
theorem ksvChanges : Obligations.KsvChanges := by
  intro s t h
  refine ⟨fun hne => ?_, fun hn hp => ?_, fun a es he => ?_, fun v es he hz => ?_, fun i v es hp he => ?_⟩
  · rcases step_cases h with ⟨_, _, rfl⟩ | ⟨hn, i, hp, hx⟩ | ⟨off, _, es, _, _, rfl⟩ | ⟨off, size, v, es, he, hd, rfl⟩ |
      ⟨a, es, he, _, rfl⟩
    · exact absurd rfl hne
    · by_cases hi : i = .expand
      · subst hi; exact .inl ⟨exec_expand_ksv hx, hn, hp⟩
      · exact absurd (exec_keeps_schedule hx hi).2 hne
    · obtain ⟨x, n, hr⟩ := hostRead_spec off { s with events := es }
      exact absurd (by rw [hr]) hne
    · obtain ⟨rfl, ha⟩ := (defined_iff _).mp hd
      obtain ⟨hf, ⟨rfl, hz⟩ | ⟨hp, i, rfl⟩⟩ := hostWrite_ksv_ne (s := { s with events := es }) ha hne
      · exact .inr ⟨hf, .inr (.inl ⟨v, es, he, hz⟩)⟩
      · exact .inr ⟨hf, .inr (.inr ⟨i, v, es, hp, he⟩)⟩
    · exact .inr ⟨rfl, .inl ⟨a, es, he⟩⟩
  · rw [step_of_engineNext hn, engineTurn_of_some (s := { s with events := s.events.tail }) hp] at h
    exact exec_expand_ksv h
  · rw [step_reset he h]; rfl
  · rw [step_write he h] at hz ⊢
    rw [hostWrite_ksv_of_ctrl rfl, decide_eq_false hz, Bool.and_false]
  · rw [step_write he h, hostWrite_ksv_of_ks (regAt_offset (.ks i) _ rfl)]
    simp [State.busy, hp]

/-- Settles O12: STATUS is never locked, so the write is `statusWrite` in every state. -/
theorem statusWriteEffect : Obligations.StatusWriteEffect := fun s v =>
  (hostWrite_unlocked (off := 0x004) rfl).trans (statusWrite_eq v s)

/-- Settles O19: ID is neither open while a command is in flight nor locked, and its write is the identity. -/
theorem idIsConstant : Obligations.IdIsConstant := fun s _ =>
  ⟨by rw [hostRead_exact (by simp [regAt, Reg.openWhileBusy])]; rfl, hostWrite_unlocked (off := 0x00C) rfl⟩

/-- Bit 0 of STATUS is BUSY (rule R48). -/
theorem statusValue_getLsbD_zero (s : State) : s.statusValue.getLsbD 0 = s.busy := by
  simp [State.statusValue]

/-- A STATUS read is exact, a command in flight or not (rules R82, R91). -/
theorem hostRead_status_reply (s : State) : (hostRead 0x004 s).reply = some s.statusValue := by
  rw [hostRead_exact (by simp [regAt, Reg.openWhileBusy])]; rfl

/-- Settles O26: a STATUS read is exact in every state, and its bit 0 is BUSY. -/
theorem busyReadsPend : Obligations.BusyReadsPend := fun s =>
  ⟨s.statusValue, hostRead_status_reply s, by rw [statusValue_getLsbD_zero, State.busy, Option.isSome_iff_ne_none]⟩

/-- Every column of the zero block is the zero word. -/
@[simp] theorem col_zero (c : Fin 4) : Block.zero.col c = 0 := by
  revert c; decide

/-- Every word of KS is 0 after reset (rule R58). -/
theorem ksGet_reset (i : Nat) : ksGet State.reset.ks i = 0 := by
  simp [ksGet, State.reset]

/-- Settles O31: each field of `State.reset`, and the reads of ID, CTRL and STATUS made of them. -/
theorem resetValues : Obligations.ResetValues :=
  ⟨rfl, rfl, rfl, rfl, rfl, rfl, rfl, rfl, rfl, rfl, rfl, col_zero, col_zero, rfl, rfl, fun i => ksGet_reset i,
    (idIsConstant _ 0).1, rfl, hostRead_status_reply _⟩

end Sys2Proof.Machine
end

section
/-! SUPPORT. The register each offset of the window names, read in numbers, and what a host access answers there (rules R81 to R86), then
the statements about the host window (20_memory.md). -/

namespace Sys2Proof.Machine

/-! ### The address map in numbers (rules R81, R85) -/

/-- The number of a register's offset is enough to find it (rule R81). -/
theorem regAt_of_toNat {off o : BitVec 9} {r : Reg} (ho : r.offset = some o) (ha : off.toNat = o.toNat) : regAt off = r :=
  regAt_offset r off (by rw [ho, BitVec.eq_of_toNat_eq ha])

/-- Column `c` of STATE is at 0x010 + 4·c (rule R81). -/
theorem regAt_state {off : BitVec 9} {c : Fin 4} (ha : off.toNat = 0x010 + 4 * c.val) : regAt off = .state c :=
  regAt_of_toNat rfl (by rw [ha, BitVec.toNat_ofNat]; omega)

/-- Column `c` of OPB is at 0x020 + 4·c (rule R81). -/
theorem regAt_opb {off : BitVec 9} {c : Fin 4} (ha : off.toNat = 0x020 + 4 * c.val) : regAt off = .opb c :=
  regAt_of_toNat rfl (by rw [ha, BitVec.toNat_ofNat]; omega)

/-- KS[i] is at 0x100 + 4·i (rule R81). -/
theorem regAt_ks {off : BitVec 9} {i : Fin 60} (ha : off.toNat = 0x100 + 4 * i.val) : regAt off = .ks i :=
  regAt_of_toNat rfl (by rw [ha, BitVec.toNat_ofNat]; omega)

/-- No register lies in 0x038..0x0FC, nor from 0x1F0 on (rule R85). -/
theorem regAt_unmapped {off : BitVec 9} (ha : (0x038 ≤ off.toNat ∧ off.toNat ≤ 0x0FC) ∨ 0x1F0 ≤ off.toNat) :
    regAt off = .unmapped := by
  fun_cases regAt off
  case case10 => rfl
  all_goals omega

/-! ### Host reads (rules R82, R85, R90) -/

/-- A read touches neither the engine's state nor the events to come (rule R90). -/
theorem hostRead_frame (off : BitVec 9) (s : State) :
    SameEngine (hostRead off s) s ∧ (hostRead off s).events = s.events := by
  obtain ⟨x, n, hr⟩ := hostRead_spec off s
  rw [hr]
  exact ⟨⟨rfl, rfl, rfl, rfl, rfl, rfl, rfl, rfl, rfl, rfl, rfl, rfl⟩, rfl⟩

/-- What an exact read of a known register returns (rules R82, R91). -/
theorem hostRead_reply_of_regAt {off : BitVec 9} {r : Reg} {s : State} (hr : regAt off = r)
    (hx : (s.busy && r.openWhileBusy) = false) : (hostRead off s).reply = some (readReg r s) := by
  subst hr
  rw [hostRead_exact hx]

/-! ### The step on a host access (rule R86) -/

/-- A defined read is made (rule R82). -/
theorem step_read_of_defined {s : State} {off : BitVec 9} {size : BitVec 2} {es : List Event}
    (he : s.events = .host (.read off size) :: es) (hd : (BusAccess.read off size).Defined) :
    step s = .next (hostRead off { s with events := es }) := by
  rw [step_of_cons he]
  simp only [handle, busAccess, show BusAccess.refusal _ = none from hd]

/-- A defined write is made (rule R83). -/
theorem step_write_of_defined {s : State} {off : BitVec 9} {size : BitVec 2} {v : Word} {es : List Event}
    (he : s.events = .host (.write off size v) :: es) (hd : (BusAccess.write off size v).Defined) :
    step s = .next (hostWrite off v { s with events := es }) := by
  rw [step_of_cons he]
  simp only [handle, busAccess, show BusAccess.refusal _ = none from hd]

/-- Any other access is refused (rule R86). -/
theorem step_refused_of_not_defined {s : State} {a : BusAccess} {es : List Event} (he : s.events = .host a :: es)
    (hd : ¬a.Defined) : step s = .refused .subWordAccess ∨ step s = .refused .misalignedAccess := by
  obtain ⟨r, hr⟩ := Option.ne_none_iff_exists'.mp hd
  have hs : step s = .refused r := by
    rw [step_of_cons he]
    simp only [handle, busAccess, hr]
  rcases refusal_cases hr with rfl | rfl
  · exact .inl hs
  · exact .inr hs

/-! ### The statements -/

/-- Settles O15: a read's frame, and at each offset the exact value of the register there (`exact_at`), none in flight where it is open. -/
theorem hostReadInFull : Obligations.HostReadInFull := by
  intro off s _
  obtain ⟨x, n, hr⟩ := hostRead_spec off s
  have hx : (hostRead off s).reply = some x := by rw [hr]
  have exact_at {r : Reg} (h : regAt off = r) (hb : (s.busy && r.openWhileBusy) = false) : x = readReg r s :=
    Option.some.inj (hx.symm.trans (hostRead_reply_of_regAt h hb))
  have closed {r : Reg} (h : regAt off = r) (hc : r.openWhileBusy = false) : x = readReg r s :=
    exact_at h (by rw [hc, Bool.and_false])
  have idle {r : Reg} (h : regAt off = r) (hp : s.pend = none) : x = readReg r s :=
    exact_at h (by rw [State.busy, hp]; rfl)
  obtain ⟨hsame, hevents⟩ := hostRead_frame off s
  exact ⟨x, hx, hsame, hevents,
    fun h => closed (r := .ctrl) (regAt_of_toNat rfl h) rfl,
    fun h => closed (r := .status) (regAt_of_toNat rfl h) rfl,
    fun h => closed (r := .cmd) (regAt_of_toNat rfl h) rfl,
    fun h => closed (r := .id) (regAt_of_toNat rfl h) rfl,
    fun _ h hp => idle (regAt_state h) hp,
    fun _ h => closed (regAt_opb h) rfl,
    fun h hp => idle (r := .wa) (regAt_of_toNat rfl h) hp,
    fun h => closed (r := .wb) (regAt_of_toNat rfl h) rfl,
    fun _ h hp => idle (regAt_ks h) hp,
    fun h => closed (regAt_unmapped h) rfl⟩

/-- Settles O17: the write of an idle engine to the register at 0x100 + 4·i, and `ksGet_ksSet` for the memory it leaves. -/
theorem keyScheduleWrite : Obligations.KeyScheduleWrite := by
  intro s i v hp
  refine ⟨ksSet s.ks i.val v, ?_, fun j => ?_⟩
  · rw [hostWrite_idle (by rw [State.busy, hp]; rfl), regAt_offset (.ks i) _ rfl]
    rfl
  · rw [ksGet_ksSet _ _ _ _ i.isLt]
    simp only [Fin.ext_iff]

/-- Settles O20: `Defined` in the numbers of rule R86 (`defined_iff`), and the step on a defined access and on any other. -/
theorem onlyAlignedWordAccesses : Obligations.OnlyAlignedWordAccesses := by
  intro s off size es
  refine ⟨fun he => ⟨fun hd => ?_, fun hd => ?_⟩, fun v he => ⟨fun hd => ?_, fun hd => ?_⟩⟩
  · exact step_read_of_defined he ((defined_iff _).mpr hd)
  · exact step_refused_of_not_defined he (mt (defined_iff _).mp hd)
  · exact step_write_of_defined he ((defined_iff _).mpr hd)
  · exact step_refused_of_not_defined he (mt (defined_iff _).mp hd)

/-- Settles O18: `unmapped` is neither open nor locked while a command is in flight, reads 0, and its write is the identity. -/
theorem unmappedOffsets : Obligations.UnmappedOffsets := by
  intro off s v _ ha
  have hr := regAt_unmapped ha
  refine ⟨?_, (hostRead_frame off s).1, ?_⟩
  · exact hostRead_reply_of_regAt hr (Bool.and_false _)
  · rw [hostWrite_unlocked (by rw [hr]; rfl), hr]
    rfl

end Sys2Proof.Machine
end

section
/-! SUPPORT. Which OPC values the decoder refuses (rules R124, R125) and what a CMD write of a refused word does (rule R280), then the statement
about the reserved OPC values (30_encoding.md). -/

namespace Sys2Proof

/-- The OPC values the opcode map leaves out, whatever ARG (rules R124, R125). -/
theorem opcodeMap_eq_none_iff (opc arg : BitVec 8) :
    opcodeMap opc arg = none ↔
      (0x08 ≤ opc.toNat ∧ opc.toNat ≤ 0x0F) ∨ (0x17 ≤ opc.toNat ∧ opc.toNat ≤ 0x1F) ∨
        (0x23 ≤ opc.toNat ∧ opc.toNat ≤ 0x2F) ∨ (0x31 ≤ opc.toNat ∧ opc.toNat ≤ 0xFF) := by
  have hlt : opc.toNat < 2 ^ 8 := opc.isLt
  fun_cases opcodeMap opc arg
  case case20 =>
    simp only [imp_false, true_iff] at *
    omega
  all_goals simp [*]

/-- The decoder's refusal E_OPC is the opcode map's alone: no check of RSVD or ARG comes before it (rule R280). -/
theorem decode_eq_error_opc_iff (v : Word) :
    decode v = .error .opc ↔ opcodeMap (opcField v) (argField v) = none := by
  fun_cases decode v <;> simp [*]

namespace Machine

/-- A CMD write of a word that is no command records why, as the first error (rules R280, R283, R284). -/
theorem issue_of_decode_error {v : Word} {e : DecodeError} (hd : decode v = .error e) (s : State) :
    issue v s = recordError (DecodeError.code e) s := by
  cases he : s.err with
  | true => rw [recordError_of_err he]; simp [issue, he]
  | false => simp [issue, he, hd]

/-- Settles O4: the decoder's E_OPC is the opcode map's `none`, found in the four ranges, and the write of an idle engine is the issue of a
refused word. -/
theorem reservedOpcodesRecordEOpc : Obligations.ReservedOpcodesRecordEOpc := by
  intro v opc reserved
  have hd : reserved ↔ decode v = .error .opc :=
    ((decode_eq_error_opc_iff v).trans (opcodeMap_eq_none_iff _ _)).symm
  refine ⟨hd, fun hr s hp => ?_⟩
  rw [hostWrite_cmd_of_idle hp, issue_of_decode_error (hd.mp hr)]
  rfl

end Machine

end Sys2Proof
end

section
/-! SUPPORT. Which registers completing a command writes and reads (rules R54, R160), then the statement about the block algebra
(40_block_algebra.md). -/

namespace Sys2Proof.Machine

/-! ### What an F1 command does from another state (rule R122) -/

/-- Where an F1 command completes with `f`, it completes with any `g` whose result at each index is `φ` of `f`'s, and so is its answer. -/
theorem completeAt_next_map {m : Nat} {n : BitVec 8} {f g : Fin (m + 1) → State} {t : State} (φ : State → State)
    (h : completeAt m n f = .next t) (hφ : ∀ k, (g k).complete = φ (f k).complete) :
    completeAt m n g = .next (φ t) := by
  by_cases hm : n.toNat ≤ m
  · rw [completeAt_of_le hm] at h ⊢
    cases h
    rw [hφ]
  · rw [completeAt_of_lt (Nat.lt_of_not_le hm)] at h
    cases h

/-! ### What a command reads (rule R160) -/

/-- No command but ADDRK and EXPAND reads or writes KS, KSV or CTRL. -/
theorem exec_with_other_schedule {i : Instr} {s t : State} (z : KeySize) (e v : Bool) (k : Vector Word 60)
    (h : exec i s = .next t) (ha : ∀ n, i ≠ .addrk n) (he : i ≠ .expand) :
    exec i { s with ksz := z, irqEn := e, ksv := v, ks := k } = .next { t with ksz := z, irqEn := e, ksv := v, ks := k } := by
  cases i
  case addrk n => exact absurd rfl (ha n)
  case expand => exact absurd rfl he
  case getcol | setcol | getrow | setrow | rcon =>
    exact completeAt_next_map (fun t => { t with ksz := z, irqEn := e, ksv := v, ks := k }) h fun _ => rfl
  all_goals cases h; rfl

/-- No command but XORB reads OPB, and none writes it (rule R44). -/
theorem exec_with_other_opb {i : Instr} {s t : State} (b : Block) (h : exec i s = .next t) (hi : i ≠ .xorb) :
    exec i { s with opb := b } = .next { t with opb := b } := by
  cases i
  case xorb => exact absurd rfl hi
  case addrk | getcol | setcol | getrow | setrow | rcon =>
    exact completeAt_next_map (fun t => { t with opb := b }) h fun _ => rfl
  all_goals cases h; rfl

/-! ### What a block algebra command writes (rules R150 to R157) -/

/-- TRANSP, XORB, SETCOL and SETROW write STATE alone (rules R151, R152, R154, R156). -/
theorem exec_writes_only_state {i : Instr} {s t : State} (h : exec i s = .next t)
    (hi : opcodeOf i ∈ ([0x10, 0x11, 0x13, 0x15] : List (BitVec 8))) :
    t = { s with state := t.state, pend := none, done := true } := by
  cases i
  case transp | xorb => cases h; rfl
  case setcol | setrow => obtain ⟨_, _, rfl⟩ := completeAt_next h; rfl
  all_goals exact absurd hi (by simp [opcodeOf])

/-- GETCOL, GETROW and XORW write WA alone (rules R153, R155, R157). -/
theorem exec_writes_only_wa {i : Instr} {s t : State} (h : exec i s = .next t)
    (hi : opcodeOf i ∈ ([0x12, 0x14, 0x16] : List (BitVec 8))) :
    t = { s with wa := t.wa, pend := none, done := true } := by
  cases i
  case xorw => cases h; rfl
  case getcol | getrow => obtain ⟨_, _, rfl⟩ := completeAt_next h; rfl
  all_goals exact absurd hi (by simp [opcodeOf])

/-- NOP is the one command of its OPC value, and it writes nothing (rules R124, R150). -/
theorem exec_nop_writes_nothing {i : Instr} {s t : State} (h : exec i s = .next t) (hi : opcodeOf i = 0x00) :
    t = { s with pend := none, done := true } := by
  have hnop : some .nop = some i := by
    rw [← opcodeMap_opcodeOf i, hi]; rfl
  cases hnop
  cases h
  rfl

/-- SETCOL n leaves every column but n (rule R154). -/
theorem exec_setcol_keeps_col {n : BitVec 8} {s t : State} (h : exec (.setcol n) s = .next t) {c : Fin 4}
    (hc : c.val ≠ n.toNat) : t.state.col c = s.state.col c := by
  obtain ⟨k, hk, rfl⟩ := completeAt_next h
  have hck : c ≠ k := fun hck => hc (hck ▸ hk)
  simp [hck]

/-! ### The statement -/

/-- Settles O45: the registers each command writes, and its completion from the other contents; neither ADDRK nor EXPAND is among the eight OPC
values. -/
theorem blockAlgebraTouchesNoSchedule : Obligations.BlockAlgebraTouchesNoSchedule := by
  intro i s t z e v k b hi h
  refine ⟨exec_nop_writes_nothing h, exec_writes_only_state h, ?_, exec_writes_only_wa h,
    exec_with_other_schedule z e v k h ?_ ?_, exec_with_other_opb b h⟩
  · rintro n rfl c hc
    exact exec_setcol_keeps_col h hc
  · rintro n rfl
    exact absurd hi (by simp [opcodeOf])
  · rintro rfl
    exact absurd hi (by simp [opcodeOf])

end Sys2Proof.Machine
end

section
/-! SUPPORT. The words the key expansion writes (rule R217) and those it keeps, for every key size, then the statement about EXPAND
(42_key_schedule.md). -/

namespace Sys2Proof.Machine

/-! ### The bounds of the expansion's indices (rules R46, R52) -/

theorem nk_pos (z : KeySize) : 0 < z.nk := by cases z <;> decide

theorem nk_le_kslen (z : KeySize) : z.nk ≤ z.kslen := by cases z <;> decide

theorem kslen_le (z : KeySize) : z.kslen ≤ 60 := by cases z <;> decide

/-- `keyExpansion` starts at Nk and ends at KSLEN, exclusive (rule R217). -/
theorem nk_add_expansion_length (z : KeySize) : z.nk + (z.kslen - z.nk) = z.kslen :=
  Nat.add_sub_cancel' (nk_le_kslen z)

/-! ### The recursion (rule R217) -/

/-- Every word the expansion writes obeys the recursion in the finished schedule: the two words it is made of lie before it, and later
words leave them as they are. -/
theorem ksGet_expandFrom_eq (z : KeySize) (n i j : Nat) (ks : Vector Word 60) (hn : i + n ≤ 60) (hz : z.nk ≤ i)
    (hij : i ≤ j) (hj : j < i + n) :
    ksGet (expandFrom z n i ks) j =
      ksGet (expandFrom z n i ks) (j - z.nk) ^^^ expandTemp z j (ksGet (expandFrom z n i ks) (j - 1)) := by
  induction n generalizing i ks with
  | zero => omega
  | succ n ih =>
    have hpos := nk_pos z
    rcases Nat.eq_or_lt_of_le hij with rfl | hlt
    · have kept (m : Nat) (hm : m < i) : ksGet (expandFrom z (n + 1) i ks) m = ksGet ks m :=
        ksGet_expandFrom_of_lt z (n + 1) i m ks hm hn
      rw [kept (i - z.nk) (by omega), kept (i - 1) (by omega), expandFrom,
        ksGet_expandFrom_of_lt z n (i + 1) i _ (by omega) (by omega), ksGet_ksSet _ _ _ _ (by omega), if_pos rfl]
    · rw [expandFrom]
      exact ih (i + 1) _ (by omega) (by omega) hlt (by omega)

/-- The key is kept (rule R216). -/
theorem ksGet_keyExpansion_of_lt {z : KeySize} {i : Nat} (ks : Vector Word 60) (hi : i < z.nk) :
    ksGet (keyExpansion z ks) i = ksGet ks i :=
  ksGet_expandFrom_of_lt _ _ _ _ _ hi ((nk_add_expansion_length z).trans_le (kslen_le z))

/-- The words from KSLEN on are kept (rule R216). -/
theorem ksGet_keyExpansion_of_ge {z : KeySize} {i : Nat} (ks : Vector Word 60) (hi : z.kslen ≤ i) :
    ksGet (keyExpansion z ks) i = ksGet ks i :=
  ksGet_expandFrom_of_ge _ _ _ _ _ ((nk_add_expansion_length z).trans_le hi)
    ((nk_add_expansion_length z).trans_le (kslen_le z))

/-- Every word from Nk up to KSLEN is word i - Nk exclusive-or what `expandTemp` makes of word i - 1 (rule R217). -/
theorem ksGet_keyExpansion_eq {z : KeySize} {i : Nat} (ks : Vector Word 60) (hz : z.nk ≤ i) (hi : i < z.kslen) :
    ksGet (keyExpansion z ks) i =
      ksGet (keyExpansion z ks) (i - z.nk) ^^^ expandTemp z i (ksGet (keyExpansion z ks) (i - 1)) :=
  ksGet_expandFrom_eq _ _ _ _ _ ((nk_add_expansion_length z).trans_le (kslen_le z)) le_rfl hz
    (hi.trans_eq (nk_add_expansion_length z).symm)

/-! ### The statement -/

/-- Settles O50: the schedule is `keyExpansion` of the key size in force, whose recursion `ksGet_keyExpansion_eq` gives with the three
branches as `expandTemp`. -/
theorem expandResult : Obligations.ExpandResult := fun s =>
  ⟨keyExpansion s.ksz s.ks, rfl, fun _ => ksGet_keyExpansion_of_lt s.ks, fun _ => ksGet_keyExpansion_eq s.ks,
    fun _ hi _ => ksGet_keyExpansion_of_ge s.ks hi⟩

end Sys2Proof.Machine
end

section
/-! SUPPORT. What a write does to the error record and to CTRL (rules R282 to R285), which commands the OPC values of rule R124 name and what
becomes of a command word on an idle engine (rule R280), and the bits of CTRL and STATUS that irq is made of (rule R295), then the statements
about acceptance and errors (60_exceptions.md). -/

namespace Sys2Proof.Machine

/-! ### The error record (rules R283 to R285) -/

/-- Recording an error writes ERR and ERRCODE alone (rule R283). -/
theorem recordError_eq (code : ErrorCode) (s : State) :
    recordError code s = { s with err := true, errCode := if s.err then s.errCode else code } := by
  cases he : s.err with
  | true => rw [recordError_of_err he]; simp [← he]
  | false => rw [recordError_of_not_err he]; rfl

/-- With an error recorded and none in flight, a CMD write is dropped (rule R284). -/
theorem issue_of_err {v : Word} {s : State} (he : s.err = true) : issue v s = s := by
  simp [issue, he]

/-- The value 11 of KSZ is reserved, and every other is a key size's own (rule R46). -/
theorem ofBits_cases (b : BitVec 2) :
    (b = 3 ∧ KeySize.ofBits b = none) ∨ (∃ z : KeySize, b = z.bits ∧ z.bits ≠ 3 ∧ KeySize.ofBits b = some z) := by
  match b with
  | 0 => exact .inr ⟨.k128, rfl, by decide, rfl⟩
  | 1 => exact .inr ⟨.k192, rfl, by decide, rfl⟩
  | 2 => exact .inr ⟨.k256, rfl, by decide, rfl⟩
  | 3 => exact .inl ⟨rfl, rfl⟩

/-- All that a CTRL write can do besides setting IRQEN: record E_CTRL for the reserved key size, or select a key size (rules R46, R47, R282). -/
theorem ctrlWrite_cases (v : Word) (s : State) :
    (v.extractLsb' 0 2 = 3 ∧ ctrlWrite v s = { recordError .ctrl s with irqEn := v.getLsbD 4 }) ∨
    (∃ z : KeySize, v.extractLsb' 0 2 = z.bits ∧ z.bits ≠ 3 ∧
      ctrlWrite v s = { s with ksz := z, irqEn := v.getLsbD 4, ksv := s.ksv && decide (z = s.ksz) }) := by
  rcases ofBits_cases (v.extractLsb' 0 2) with ⟨hb, ho⟩ | ⟨z, hb, hz, ho⟩
  · exact .inl ⟨hb, by simp only [ctrlWrite, ho]⟩
  · refine .inr ⟨z, hb, hz, ?_⟩
    by_cases h : z = s.ksz <;> simp [ctrlWrite, ho, h]

/-- A write to a register, none in flight, keeps a recorded error, but for a STATUS write with bit 2 set (rules R49, R283). -/
theorem writeReg_keeps_error {r : Reg} {v : Word} {s : State} (he : s.err = true)
    (hr : r = .status → v.getLsbD 2 = false) :
    (writeReg r v s).err = true ∧ (writeReg r v s).errCode = s.errCode := by
  cases r with
  | status => rw [writeReg, statusWrite_eq, hr rfl]; exact ⟨by simp [he], rfl⟩
  | cmd => simp [writeReg, issue_of_err he, he]
  | ctrl =>
    rcases ctrlWrite_cases v s with ⟨_, h⟩ | ⟨_, _, _, h⟩ <;> simp [writeReg, h, recordError_of_err he, he]
  | _ => exact ⟨he, rfl⟩

/-- A host write keeps a recorded error, but for a STATUS write with bit 2 set (rules R283, R285). -/
theorem hostWrite_keeps_error {off : BitVec 9} {v : Word} {s : State} (he : s.err = true)
    (hr : regAt off = .status → v.getLsbD 2 = false) :
    (hostWrite off v s).err = true ∧ (hostWrite off v s).errCode = s.errCode := by
  unfold hostWrite
  split
  · rw [recordError_of_err he]; exact ⟨he, rfl⟩
  · exact writeReg_keeps_error he hr

/-- Settles O8: `RecordError`'s two cases, then each kind of step (`step_cases`); among the host's writes only STATUS with bit 2 set
clears. -/
theorem firstErrorIsKept : Obligations.FirstErrorIsKept := by
  refine ⟨fun code s => ⟨recordError_of_not_err, recordError_of_err⟩, fun s t h he => ?_⟩
  rcases step_cases h with ⟨_, _, rfl⟩ | ⟨_, i, _, hx⟩ | ⟨off, _, es, _, _, rfl⟩ | ⟨off, size, v, es, hev, hd, rfl⟩ |
    ⟨a, es, hev, _, rfl⟩
  · exact .inl ⟨he, rfl⟩
  · obtain ⟨_, _, _, _, rfl⟩ := exec_next hx
    exact .inl ⟨he, rfl⟩
  · obtain ⟨_, _, hr⟩ := hostRead_spec off { s with events := es }
    rw [hr]
    exact .inl ⟨he, rfl⟩
  · by_cases hc : regAt off = .status ∧ v.getLsbD 2 = true
    · obtain ⟨hr, hv⟩ := hc
      obtain ⟨rfl, ha⟩ := (defined_iff _).mp hd
      obtain rfl := eq_offset_of_regAt ha hr rfl
      rw [statusWriteEffect]
      exact .inr (.inl ⟨v, es, hev, hv, by simp [hv], by simp [hv]⟩)
    · exact .inl (hostWrite_keeps_error he fun hr => Bool.eq_false_iff.mpr fun hv => hc ⟨hr, hv⟩)
  · exact .inr (.inr ⟨a, es, hev, rfl, rfl⟩)

/-- What a write does to a register at its offset, none in flight (rule R83). -/
theorem hostWrite_offset_of_idle {r : Reg} {off : BitVec 9} {v : Word} {s : State} (ho : r.offset = some off)
    (hp : s.pend = none) : hostWrite off v s = writeReg r v s := by
  rw [hostWrite_idle (by rw [State.busy, hp]; rfl), regAt_offset r off ho]

/-! ### CTRL writes (rule R282) -/

/-- A CTRL write on an idle engine is `CtrlWrite` (rule R83). -/
theorem hostWrite_ctrl_of_idle {v : Word} {s : State} (hp : s.pend = none) : hostWrite 0x000 v s = ctrlWrite v s :=
  hostWrite_offset_of_idle (r := .ctrl) rfl hp

@[simp] theorem ctrlWrite_irqEn (v : Word) (s : State) : (ctrlWrite v s).irqEn = v.getLsbD 4 := rfl

@[simp] theorem ctrlWrite_done (v : Word) (s : State) : (ctrlWrite v s).done = s.done := by
  rcases ctrlWrite_cases v s with ⟨_, h⟩ | ⟨_, _, _, h⟩ <;> simp [h]

/-- A CTRL write of a key size that is not reserved selects it (rule R47). -/
theorem ctrlWrite_ksz_bits {v : Word} (s : State) (hv : v.extractLsb' 0 2 ≠ 3) :
    (ctrlWrite v s).ksz.bits = v.extractLsb' 0 2 := by
  rcases ctrlWrite_cases v s with ⟨h, _⟩ | ⟨_, hz, _, h⟩
  · exact absurd h hv
  · rw [h, hz]

/-- Each key size has its own value of KSZ (rule R46). -/
theorem bits_inj {y z : KeySize} : y.bits = z.bits ↔ y = z := by
  cases y <;> cases z <;> decide

/-- Settles O9: each write is `writeReg` of the register at its offset; only the CMD write looks at ERR. -/
theorem errorDropsCommandsOnly : Obligations.ErrorDropsCommandsOnly := by
  intro s v he hp
  refine ⟨?_, fun c => ⟨?_, ?_⟩, ?_, ?_, fun i => ?_, ?_, fun hv => ?_, fun hv => ?_⟩
  · rw [hostWrite_cmd_of_idle hp, issue_of_err he]
  · exact hostWrite_offset_of_idle (r := .state c) rfl hp
  · exact hostWrite_offset_of_idle (r := .opb c) rfl hp
  · exact hostWrite_offset_of_idle (r := .wa) rfl hp
  · exact hostWrite_offset_of_idle (r := .wb) rfl hp
  · exact hostWrite_offset_of_idle (r := .ks i) rfl hp
  · rw [hostWrite_ctrl_of_idle hp]; rfl
  · rw [hostWrite_ctrl_of_idle hp]; exact ctrlWrite_ksz_bits s hv
  · rw [statusWriteEffect]; simp [hv]

/-- Settles O11: the two cases of `ctrlWrite_cases`, and the dropped write. -/
theorem ctrlWriteEffect : Obligations.CtrlWriteEffect := by
  refine fun s v => ⟨fun hp => ⟨_, hostWrite_ctrl_of_idle hp, rfl, ?_⟩, fun hp => ?_⟩
  · rcases ctrlWrite_cases v s with ⟨hv, h⟩ | ⟨z, hv, hz, h⟩
    · rw [h]
      refine ⟨fun _ => ⟨by simp, by simp, by simp, recordError_errCode _ _⟩, fun hn => absurd hv hn, ?_⟩
      simp [recordError_eq]
    · rw [h]
      refine ⟨fun h3 => absurd (hv.symm.trans h3) hz, fun _ => ⟨hv.symm, ?_, rfl, rfl⟩, rfl⟩
      simp [hv, bits_inj]
  · exact hostWrite_dropped (Option.isSome_iff_ne_none.mpr hp) rfl

/-! ### Writes while a command is in flight (rule R285) -/

/-- The offsets whose writes are dropped while a command is in flight (rules R81, R285). -/
theorem lockedWhileBusy_regAt {off : BitVec 9} (ha : off.toNat % 4 = 0)
    (h : off.toNat = 0x000 ∨ off.toNat = 0x008 ∨ (0x010 ≤ off.toNat ∧ off.toNat ≤ 0x034) ∨
      (0x100 ≤ off.toNat ∧ off.toNat ≤ 0x1EC)) : (regAt off).lockedWhileBusy = true := by
  fun_cases regAt off
  case case2 | case4 | case10 => omega
  all_goals rfl

/-- No command reads or writes the error record (rule R283). -/
theorem exec_with_other_error {i : Instr} {s t : State} (e : Bool) (code : ErrorCode) (h : exec i s = .next t) :
    exec i { s with err := e, errCode := code } = .next { t with err := e, errCode := code } := by
  cases i
  case addrk | getcol | setcol | getrow | setrow | rcon =>
    exact completeAt_next_map (fun t => { t with err := e, errCode := code }) h fun _ => rfl
  all_goals cases h; rfl

/-- Settles O10: the dropped write is `RecordError`, which the command in flight does not see; STATUS, ID and the unmapped offsets are
never locked. -/
theorem busyWritesAreDropped : Obligations.BusyWritesAreDropped := by
  intro s i off v hp ha a
  refine ⟨fun h => ?_, fun h => ?_, fun h => ?_⟩
  · have hw : hostWrite off v s = recordError .busy s :=
      hostWrite_dropped (by rw [State.busy, hp]; rfl) (lockedWhileBusy_regAt ha h)
    refine ⟨hw, fun t ht => ?_⟩
    rw [engineTurn_of_some hp] at ht
    refine ⟨by obtain ⟨_, _, _, _, rfl⟩ := exec_next ht; rfl, ?_⟩
    rw [hw, engineTurn_of_some ((recordError_pend _ _).trans hp), recordError_eq]
    exact exec_with_other_error _ _ ht
  · obtain rfl : off = 0x004 := BitVec.eq_of_toNat_eq h
    exact statusWriteEffect s v
  · rcases h with h | h
    · obtain rfl : off = 0x00C := BitVec.eq_of_toNat_eq h
      exact (idIsConstant s v).2
    · exact (unmappedOffsets off s v ha h).2.2

/-! ### The interrupt output (rule R295) -/

/-- Bit 4 of CTRL is IRQEN (rule R45). -/
theorem ctrlValue_getLsbD_four (s : State) : s.ctrlValue.getLsbD 4 = s.irqEn := by
  simp [State.ctrlValue]

/-- Bit 1 of STATUS is DONE (rule R48). -/
theorem statusValue_getLsbD_one (s : State) : s.statusValue.getLsbD 1 = s.done := by
  simp [State.statusValue]

/-- Bit 2 of STATUS is ERR (rule R48). -/
theorem statusValue_getLsbD_two (s : State) : s.statusValue.getLsbD 2 = s.err := by
  simp [State.statusValue]

/-- A CTRL write clears no error (rule R283). -/
theorem ctrlWrite_err {v : Word} {s : State} (he : s.err = true) : (ctrlWrite v s).err = true :=
  (writeReg_keeps_error (r := .ctrl) he nofun).1

/-- The interrupt output after a CTRL write: IRQEN is bit 4, and DONE is kept (rules R282, R295). -/
theorem ctrlWrite_irq (v : Word) (s : State) :
    (ctrlWrite v s).irq = (v.getLsbD 4 && (s.done || (ctrlWrite v s).err)) := by
  rw [State.irq, ctrlWrite_irqEn, ctrlWrite_done]

/-- Settles O13: IRQEN, DONE and ERR after each cause of a rise or a fall. -/
theorem interruptLevel : Obligations.InterruptLevel := by
  intro s
  refine ⟨?_, fun i t h hq => ?_, fun code hq => ?_, fun v hp hc hv => ?_, fun v h1 h2 => ?_, fun v hp hv => ?_,
    fun a t h => ?_⟩
  · rw [ctrlValue_getLsbD_four, statusValue_getLsbD_one, statusValue_getLsbD_two, State.irq]
  · obtain ⟨_, _, _, _, rfl⟩ := exec_next h
    simp [State.irq, hq]
  · simp [State.irq, hq]
  · rw [hostWrite_ctrl_of_idle hp, ctrlWrite_irq, hv]
    rcases hc with hd | he
    · simp [hd]
    · simp [ctrlWrite_err he]
  · rw [statusWriteEffect, h1, h2]
    simp [State.irq]
  · rw [hostWrite_ctrl_of_idle hp, ctrlWrite_irq, hv, Bool.false_and]
  · rcases busReset_cases a s with ⟨_, _, hr⟩ | ⟨_, hr⟩ <;> cases hr.symm.trans h
    rfl

/-! ### Acceptance (rule R280) -/

/-- The OPC values of the F0 commands (rule R124). -/
def f0Opcodes : List (BitVec 8) := [0x00, 0x01, 0x02, 0x03, 0x04, 0x05, 0x06, 0x10, 0x11, 0x16, 0x20, 0x21, 0x30]

/-- The OPC values of the F1 commands (rule R124). -/
def f1Opcodes : List (BitVec 8) := [0x07, 0x12, 0x13, 0x14, 0x15, 0x22]

/-- A command carries no argument exactly if its OPC value is one of F0's. -/
theorem opcodeOf_mem_f0Opcodes (i : Instr) : opcodeOf i ∈ f0Opcodes ↔ i.argMax = none := by
  cases i <;> simp [opcodeOf, f0Opcodes, Instr.argMax]

/-- A command carries an argument exactly if its OPC value is one of F1's. -/
theorem opcodeOf_mem_f1Opcodes (i : Instr) : opcodeOf i ∈ f1Opcodes ↔ i.argMax ≠ none := by
  cases i <;> simp [opcodeOf, f1Opcodes, Instr.argMax]

/-- An OPC value that is no command's is in neither list (rule R125). -/
theorem not_mem_opcodes_of_opcodeMap_eq_none {opc arg : BitVec 8} (h : opcodeMap opc arg = none) :
    opc ∉ f0Opcodes ∧ opc ∉ f1Opcodes := by
  have named : ∀ o ∈ f0Opcodes ++ f1Opcodes, opcodeMap o arg ≠ none := by simp [f0Opcodes, f1Opcodes, opcodeMap]
  constructor <;> exact fun hm => named opc (by simp [hm]) h

/-- The largest ARG that rule R280 lets in for an F1 command's OPC value: Nr of the key size in force, 10 or 3. -/
def argLimit (z : KeySize) (opc : BitVec 8) : Nat := if opc = 0x07 then z.nr else if opc = 0x22 then 10 else 3

/-- The limit in force never exceeds the decoder's, which is that of the largest key size (rules R122, R124). -/
theorem argLimit_le {i : Instr} {m : Nat} (z : KeySize) (hm : i.argMax = some m) : argLimit z (opcodeOf i) ≤ m := by
  cases i <;> cases hm
  case addrk => cases z <;> simp [argLimit, opcodeOf, KeySize.nr]
  all_goals simp [argLimit, opcodeOf]

/-- The checks of rule R280 that read the engine's state, by the opcode: the limit in force, then KSV for ADDRK. -/
theorem acceptanceError_eq {i : Instr} (hw : i.wellFormed = true) (s : State) :
    acceptanceError s i =
      if i.argMax ≠ none ∧ argLimit s.ksz (opcodeOf i) < i.arg.toNat then some .range
      else if opcodeOf i = 0x07 ∧ s.ksv = false then some .ksinv
      else none := by
  cases i
  case addrk n => cases hk : s.ksv <;> simp [acceptanceError, argLimit, opcodeOf, Instr.argMax, Instr.arg, hk]
  case getcol | setcol | getrow | setrow | rcon =>
    have hle := of_decide_eq_true hw
    simpa [acceptanceError, argLimit, opcodeOf, Instr.argMax] using hle
  all_goals simp [acceptanceError, opcodeOf, Instr.argMax]

/-- A word that decodes is checked against the engine's state, and becomes PEND if no check fails (rule R280). -/
theorem issue_of_decode_ok {v : Word} {i : Instr} {s : State} (he : s.err = false) (hd : decode v = .ok i)
    (hw : i.wellFormed = true) :
    issue v s =
      if i.argMax ≠ none ∧ argLimit s.ksz (opcodeOf i) < i.arg.toNat then recordError .range s
      else if opcodeOf i = 0x07 ∧ s.ksv = false then recordError .ksinv s
      else { s with pend := some i } := by
  simp only [issue, if_neg (Bool.eq_false_iff.mp he), hd, acceptanceError_eq hw]
  split_ifs <;> rfl

section
variable {v : Word} {i : Instr} (hm : opcodeMap (opcField v) (argField v) = some i)
include hm

/-- RSVD is checked before ARG (rule R280). -/
theorem decode_of_rsvdField_ne_zero (hr : rsvdField v ≠ 0) : decode v = .error .rsvd := by
  simp only [decode, hm, if_pos hr]

/-- ARG must be 0 on an F0 command (rule R122). -/
theorem decode_of_argMax_eq_none (hr : rsvdField v = 0) (ha : i.argMax = none) :
    decode v = if argField v ≠ 0 then .error .rsvd else .ok i := by
  simp only [decode, hm, if_neg (not_not.mpr hr), ha]

/-- ARG must not exceed the largest limit of an F1 command (rule R122). -/
theorem decode_of_argMax_eq_some {m : Nat} (hr : rsvdField v = 0) (ha : i.argMax = some m) :
    decode v = if m < (argField v).toNat then .error .range else .ok i := by
  simp only [decode, hm, if_neg (not_not.mpr hr), ha]

/-- The checks after OPC, in the order of rule R280. -/
theorem issue_of_opcodeMap_eq_some {s : State} (he : s.err = false) :
    issue v s =
      if rsvdField v ≠ 0 then recordError .rsvd s
      else if opcField v ∈ f0Opcodes ∧ argField v ≠ 0 then recordError .rsvd s
      else if opcField v ∈ f1Opcodes ∧ argLimit s.ksz (opcField v) < (argField v).toNat then recordError .range s
      else if opcField v = 0x07 ∧ s.ksv = false then recordError .ksinv s
      else { s with pend := opcodeMap (opcField v) (argField v) } := by
  obtain ⟨ho, harg⟩ := opcodeMap_some hm
  rw [hm, ← ho]
  simp only [opcodeOf_mem_f0Opcodes, opcodeOf_mem_f1Opcodes]
  by_cases hr : rsvdField v = 0
  case neg =>
    rw [if_pos hr, issue_of_decode_error (decode_of_rsvdField_ne_zero hm hr)]
    rfl
  rw [if_neg (not_not.mpr hr)]
  cases ha : i.argMax with
  | none =>
    have hd := decode_of_argMax_eq_none hm hr ha
    by_cases hn : argField v = 0
    · rw [if_neg (not_not.mpr hn)] at hd
      rw [issue_of_decode_ok he hd (by simp [Instr.wellFormed, ha])]
      simp [ha, hn]
    · rw [if_pos hn] at hd
      rw [issue_of_decode_error hd, if_pos ⟨rfl, hn⟩]
      rfl
  | some m =>
    have hd := decode_of_argMax_eq_some hm hr ha
    have hi : i.arg = argField v := harg (by simp [ha])
    by_cases hlt : m < (argField v).toNat
    · rw [if_pos hlt] at hd
      rw [issue_of_decode_error hd, if_neg (by simp), if_pos ⟨by simp, (argLimit_le s.ksz ha).trans_lt hlt⟩]
      rfl
    · rw [if_neg hlt] at hd
      rw [issue_of_decode_ok he hd (by simpa [Instr.wellFormed, ha, hi] using hlt), hi]
      simp [ha]

/-- The OPC value of a command is in one of the two lists (rule R124). -/
theorem mem_opcodes_of_opcodeMap_eq_some : opcField v ∈ f0Opcodes ∨ opcField v ∈ f1Opcodes := by
  rw [← (opcodeMap_some hm).1, opcodeOf_mem_f0Opcodes, opcodeOf_mem_f1Opcodes]
  exact em _

end

/-- Settles O5: ERR and the opcode map decide the first two branches, `issue_of_opcodeMap_eq_some` the rest. -/
theorem commandAcceptance : Obligations.CommandAcceptance := by
  intro v s hp opc n f0 f1 nr maxarg raise
  rw [hostWrite_cmd_of_idle hp]
  by_cases he : s.err = true
  · rw [if_pos he, issue_of_err he]
  have hraise (code : ErrorCode) : raise code = recordError code s :=
    (recordError_of_not_err (Bool.eq_false_iff.mpr he)).symm
  rw [if_neg he]
  simp only [hraise]
  obtain hm | ⟨i, hm⟩ := Option.eq_none_or_eq_some (opcodeMap opc n)
  · exact (issue_of_decode_error ((decode_eq_error_opc_iff v).mpr hm) s).trans
      (if_pos (not_mem_opcodes_of_opcodeMap_eq_none hm)).symm
  · have hmem := mem_opcodes_of_opcodeMap_eq_some hm
    exact (issue_of_opcodeMap_eq_some hm (Bool.eq_false_iff.mpr he)).trans
      (if_neg fun ⟨h0, h1⟩ => hmem.elim h0 h1).symm

end Sys2Proof.Machine
end

section
/-! SUPPORT. When the decoder accepts a word (rules R121 to R125), then the statements about decoding and encoding (30_encoding.md). -/

namespace Sys2Proof

/-- An F0 command's argument is 0 (rule R122). -/
theorem arg_of_argMax_eq_none {i : Instr} (h : i.argMax = none) : i.arg = 0 := by
  cases i
  case addrk | getcol | setcol | getrow | setrow | rcon => cases h
  all_goals rfl

/-- The decoder accepts a word exactly if its OPC names a command, RSVD is 0, and ARG is that command's argument and in its range. -/
theorem decode_eq_ok_iff (v : Word) (i : Instr) :
    decode v = .ok i ↔
      opcodeMap (opcField v) (argField v) = some i ∧ rsvdField v = 0 ∧ i.arg = argField v ∧ i.wellFormed = true := by
  cases hm : opcodeMap (opcField v) (argField v) with
  | none => simp [(decode_eq_error_opc_iff v).mpr hm]
  | some j =>
    by_cases hr : rsvdField v = 0
    case neg =>
      rw [Machine.decode_of_rsvdField_ne_zero hm hr]
      exact ⟨nofun, fun h => absurd h.2.1 hr⟩
    cases ha : j.argMax with
    | none =>
      rw [Machine.decode_of_argMax_eq_none hm hr ha]
      have hj : j.arg = 0 := arg_of_argMax_eq_none ha
      have hw : j.wellFormed = true := by simp [Instr.wellFormed, ha]
      by_cases hn : argField v = 0
      · rw [if_neg (not_not.mpr hn), Except.ok.injEq, Option.some.injEq]
        exact ⟨by rintro rfl; exact ⟨rfl, hr, hj.trans hn.symm, hw⟩, And.left⟩
      · rw [if_pos hn]
        refine ⟨nofun, ?_⟩
        rintro ⟨h, _, harg, _⟩
        cases h
        exact absurd (harg.symm.trans hj) hn
    | some m =>
      rw [Machine.decode_of_argMax_eq_some hm hr ha]
      have hj : j.arg = argField v := (opcodeMap_some hm).2 (by simp [ha])
      have hw : j.wellFormed = true ↔ ¬m < (argField v).toNat := by simp [Instr.wellFormed, ha, hj]
      by_cases hlt : m < (argField v).toNat
      · rw [if_pos hlt]
        refine ⟨nofun, ?_⟩
        rintro ⟨h, _, _, hwf⟩
        cases h
        exact absurd hlt (hw.mp hwf)
      · rw [if_neg hlt, Except.ok.injEq, Option.some.injEq]
        exact ⟨by rintro rfl; exact ⟨rfl, hr, hj, hw.mpr hlt⟩, And.left⟩

/-- Settles O1: the fields of the command's word are its opcode, its argument and 0, which is what the decoder asks for. -/
theorem decodeOfEncode : Obligations.DecodeOfEncode := by
  intro i hw
  obtain ⟨hopc, harg, hrsvd⟩ := Laws.EncodeFields.fields i
  refine (decode_eq_ok_iff _ i).mpr ⟨?_, hrsvd, harg.symm, hw⟩
  rw [hopc, harg, opcodeMap_opcodeOf]

/-- Settles O2: an accepted word has the opcode and the argument of its command and RSVD 0, so it is made of the command's fields. -/
theorem encodeOfDecode : Obligations.EncodeOfDecode := by
  intro v i h
  obtain ⟨hm, hr, harg, hw⟩ := (decode_eq_ok_iff v i).mp h
  refine ⟨?_, hw⟩
  rw [encode, (opcodeMap_some hm).1, harg, commandWord_fields hr]

/-- Settles O3: each command of the table encodes to its word, and the decoding is O1's, its ARG being in range. -/
theorem encodedWordsOfTheTable : Obligations.EncodedWordsOfTheTable := by
  have row (i : Instr) (v : Word) (h : encode i = v ∧ i.wellFormed = true) : encode i = v ∧ decode v = .ok i :=
    ⟨h.1, h.1 ▸ decodeOfEncode i h.2⟩
  intro p hp
  apply row
  revert p
  decide

end Sys2Proof
end

section
/-! SUPPORT. What a host write does to a command in flight and what it works on, how a CMD write is accepted (rules R280, R285), and the steps that
keep the invariant, then the statements about the invariant (`State.Inv`) and acceptance. -/

namespace Sys2Proof.Machine

/-! ### Acceptance (rule R280) -/

/-- A word of an accepted command becomes PEND and does nothing else (rules R55, R280). -/
theorem issue_of_accepted {v : Word} {i : Instr} {s : State} (he : s.err = false) (hd : decode v = .ok i)
    (ha : acceptanceError s i = none) : issue v s = { s with pend := some i } := by
  simp [issue, he, hd, ha]

/-- A word of a command that a check against the state refuses records why (rules R280, R283). -/
theorem issue_of_refused {v : Word} {i : Instr} {s : State} {code : ErrorCode} (he : s.err = false) (hd : decode v = .ok i)
    (ha : acceptanceError s i = some code) : issue v s = { s with err := true, errCode := code } := by
  simp [issue, he, hd, ha, recordError_of_not_err he]

/-- ADDRK is accepted with its round within Nr and a valid schedule, every other command always (rule R280). -/
theorem acceptanceError_eq_none {i : Instr} {s : State}
    (h : ∀ n, i = .addrk n → n.toNat ≤ s.ksz.nr ∧ s.ksv = true) : acceptanceError s i = none := by
  cases i
  case addrk n =>
    obtain ⟨hn, hk⟩ := h n rfl
    simp [acceptanceError, hn, hk]
  all_goals rfl

/-- The checks of acceptance read no more of the state than KSZ and KSV (rule R280). -/
theorem acceptanceError_congr {s t : State} (hz : t.ksz = s.ksz) (hk : t.ksv = s.ksv) (i : Instr) :
    acceptanceError t i = acceptanceError s i := by
  cases i <;> simp [acceptanceError, hz, hk]

/-- Settles O6: the word decodes to the command (O1), and the checks against the state pass. -/
theorem goodCommandIsAccepted : Obligations.GoodCommandIsAccepted := by
  intro i s hw hp he h
  rw [hostWrite_cmd_of_idle hp, issue_of_accepted he (decodeOfEncode i hw) (acceptanceError_eq_none h)]

/-- Settles O7: two words do not decode, the other two decode to an ADDRK that the state's checks refuse. -/
theorem errorPriorityExamples : Obligations.ErrorPriorityExamples := by
  intro s hp he hz hk
  simp only [hostWrite_cmd_of_idle hp]
  have refused {v : Word} {e : DecodeError} (hd : decode v = .error e) : (issue v s).errCode = DecodeError.code e := by
    rw [issue_of_decode_error hd, recordError_of_not_err he]
  have checked {v : Word} {i : Instr} {code : ErrorCode} (hd : decode v = .ok i)
      (ha : acceptanceError s i = some code) : (issue v s).errCode = code := by
    rw [issue_of_refused he hd ha]
  exact ⟨refused (e := .opc) rfl, refused (e := .rsvd) rfl,
    checked (i := .addrk 11) rfl (by simp [acceptanceError, hz, KeySize.nr]),
    checked (i := .addrk 10) rfl (by simp [acceptanceError, hz, hk, KeySize.nr])⟩

/-! ### What a host write leaves (rules R83, R285) -/

/-- While a command is in flight a write can change DONE, ERR and ERRCODE alone (rule R285). -/
theorem hostWrite_of_busy {off : BitVec 9} {v : Word} {s : State} (hb : s.busy = true) :
    ∃ d e c, hostWrite off v s = { s with done := d, err := e, errCode := c } := by
  cases hl : (regAt off).lockedWhileBusy with
  | true => rw [hostWrite_dropped hb hl, recordError_eq]; exact ⟨_, _, _, rfl⟩
  | false =>
    rw [hostWrite_unlocked hl]
    cases hr : regAt off with
    | status => rw [writeReg, statusWrite_eq]; exact ⟨_, _, _, rfl⟩
    | id | unmapped => exact ⟨_, _, _, rfl⟩
    | _ => rw [hr] at hl; cases hl

/-- On an idle engine no write but that of an accepted command's word to CMD puts a command in flight (rule R55). -/
theorem writeReg_pend_of_idle {r : Reg} {v : Word} {s : State} {i : Instr} (hp : s.pend = none)
    (h : (writeReg r v s).pend = some i) :
    decode v = .ok i ∧ acceptanceError s i = none ∧ writeReg r v s = { s with pend := some i } := by
  cases r with
  | cmd =>
    simp only [writeReg] at h ⊢
    rcases issue_cases v s with ⟨_, hs⟩ | ⟨_, _, _, hs⟩ | ⟨_, j, hd, ha, hs⟩ <;> rw [hs] at h
    · simp [hp] at h
    · simp [hp] at h
    · cases h
      exact ⟨hd, ha, hs⟩
  | ctrl => rcases ctrlWrite_cases v s with ⟨_, hs⟩ | ⟨_, _, _, hs⟩ <;> simp [writeReg, hs, hp] at h
  | status => simp [writeReg, statusWrite_eq, hp] at h
  | _ => simp [writeReg, hp] at h

/-- A write that leaves KSV = 1 found it so, and left KS and KSZ as they were (rules R47, R84). -/
theorem writeReg_keeps_schedule {r : Reg} {v : Word} {s : State} (h : (writeReg r v s).ksv = true) :
    s.ksv = true ∧ (writeReg r v s).ksz = s.ksz ∧ (writeReg r v s).ks = s.ks := by
  cases r with
  | ks i => cases h
  | ctrl =>
    simp only [writeReg] at h ⊢
    rcases ctrlWrite_cases v s with ⟨_, hs⟩ | ⟨z, _, _, hs⟩ <;> rw [hs] at h ⊢
    · exact ⟨by simpa using h, by simp, by simp⟩
    · simpa using h
  | cmd =>
    simp only [writeReg] at h ⊢
    rcases issue_cases v s with ⟨_, hs⟩ | ⟨_, _, _, hs⟩ | ⟨_, _, _, _, hs⟩ <;> rw [hs] at h ⊢ <;> exact ⟨h, rfl, rfl⟩
  | status => rw [writeReg, statusWrite_eq] at h ⊢; exact ⟨h, rfl, rfl⟩
  | _ => exact ⟨h, rfl, rfl⟩

/-- The same of every host write, dropped or not (rule R53). -/
theorem hostWrite_keeps_schedule {off : BitVec 9} {v : Word} {s : State} (h : (hostWrite off v s).ksv = true) :
    s.ksv = true ∧ (hostWrite off v s).ksz = s.ksz ∧ (hostWrite off v s).ks = s.ks := by
  cases hb : s.busy with
  | true =>
    obtain ⟨_, _, _, hs⟩ := hostWrite_of_busy (off := off) (v := v) hb
    rw [hs] at h ⊢
    exact ⟨h, rfl, rfl⟩
  | false => rw [hostWrite_idle hb] at h ⊢; exact writeReg_keeps_schedule h

/-! ### The error record (rules R281, R283) -/

/-- A recorded error has a code (rule R281). -/
theorem recordError_errorConsistent {code : ErrorCode} {s : State} (hc : code ≠ .noError) (h : s.ErrorConsistent) :
    (recordError code s).ErrorConsistent := by
  cases he : s.err with
  | true => rwa [recordError_of_err he]
  | false => rw [recordError_of_not_err he]; exact ⟨nofun, fun h => absurd h hc⟩

/-- Every write to a register keeps the error record consistent: a recorded error has a code, and both are cleared together (rules R49, R283). -/
theorem writeReg_errorConsistent {r : Reg} {v : Word} {s : State} (h : s.ErrorConsistent) :
    (writeReg r v s).ErrorConsistent := by
  cases r with
  | status =>
    rw [writeReg, statusWrite_eq]
    cases v.getLsbD 2 with
    | true => simp [State.ErrorConsistent]
    | false => simpa [State.ErrorConsistent] using h
  | ctrl =>
    rw [writeReg]
    rcases ctrlWrite_cases v s with ⟨_, hs⟩ | ⟨_, _, _, hs⟩ <;> rw [hs]
    · exact recordError_errorConsistent (code := .ctrl) nofun h
    · exact h
  | cmd =>
    rw [writeReg]
    rcases issue_cases v s with ⟨_, hs⟩ | ⟨_, code, hc, hs⟩ | ⟨_, _, _, _, hs⟩ <;> rw [hs]
    · exact h
    · exact ⟨nofun, fun h => absurd h hc⟩
    · exact h
  | _ => exact h

/-- Settles O34: no command touches the error record, and each write keeps it consistent. -/
theorem stepKeepsErrorConsistent : Obligations.StepKeepsErrorConsistent := by
  intro s t hs h
  rcases step_cases h with ⟨_, _, rfl⟩ | ⟨_, i, _, hx⟩ | ⟨off, _, es, _, _, rfl⟩ | ⟨off, _, v, es, _, _, rfl⟩ |
    ⟨a, es, _, _, rfl⟩
  · exact hs
  · obtain ⟨_, _, _, _, rfl⟩ := exec_next hx
    exact hs
  · obtain ⟨_, _, hr⟩ := hostRead_spec off { s with events := es }
    rw [hr]
    exact hs
  · unfold hostWrite
    split
    · exact recordError_errorConsistent nofun hs
    · exact writeReg_errorConsistent hs
  · exact ⟨fun _ => rfl, fun _ => rfl⟩

/-! ### The command in flight (rules R55, R280, R285) -/

/-- The acceptance of the command in flight is kept where PEND, KSZ and KSV are. -/
theorem pendAccepted_congr {s t : State} (hp : t.pend = s.pend) (hz : t.ksz = s.ksz) (hk : t.ksv = s.ksv)
    (h : s.PendAccepted) : t.PendAccepted := by
  intro i hi
  rw [acceptanceError_congr hz hk]
  exact h i (hp ▸ hi)

/-- A host write keeps the command in flight accepted: it changes nothing of it while it is in flight, and lets in no other than an accepted one. -/
theorem hostWrite_pendAccepted {off : BitVec 9} {v : Word} {s : State} (h : s.PendAccepted) :
    (hostWrite off v s).PendAccepted := by
  cases hb : s.busy with
  | true =>
    obtain ⟨_, _, _, hs⟩ := hostWrite_of_busy (off := off) (v := v) hb
    rw [hs]
    exact pendAccepted_congr rfl rfl rfl h
  | false =>
    rw [hostWrite_idle hb]
    intro i hi
    obtain ⟨hd, ha, hs⟩ := writeReg_pend_of_idle (by simpa [State.busy] using hb) hi
    rw [hs]
    exact ⟨(encodeOfDecode v i hd).2, (acceptanceError_congr rfl rfl i).trans ha⟩

/-- Settles O35: a completion leaves none in flight, and every other step keeps the command in flight and what it was accepted on, or lets in an
accepted one. -/
theorem stepKeepsPendAccepted : Obligations.StepKeepsPendAccepted := by
  intro s t hs h
  rcases step_cases h with ⟨_, _, rfl⟩ | ⟨_, i, _, hx⟩ | ⟨off, _, es, _, _, rfl⟩ | ⟨off, _, v, es, _, _, rfl⟩ |
    ⟨a, es, _, _, rfl⟩
  · exact pendAccepted_congr rfl rfl rfl hs
  · obtain ⟨_, _, _, _, rfl⟩ := exec_next hx
    exact nofun
  · obtain ⟨_, _, hr⟩ := hostRead_spec off { s with events := es }
    rw [hr]
    exact pendAccepted_congr rfl rfl rfl hs
  · exact hostWrite_pendAccepted (pendAccepted_congr (t := { s with events := es }) rfl rfl rfl hs)
  · exact nofun

/-! ### The schedule (rules R48, R216, R217) -/

/-- The schedule depends on the key words alone: by induction on the index, each later word being made of two before it (rule R217). -/
theorem ksGet_keyExpansion_congr {z : KeySize} {ks ks' : Vector Word 60}
    (h : ∀ i, i < z.nk → ksGet ks i = ksGet ks' i) (i : Nat) (hi : i < z.kslen) :
    ksGet (keyExpansion z ks) i = ksGet (keyExpansion z ks') i := by
  induction i using Nat.strongRecOn with
  | ind i ih =>
    have hpos := nk_pos z
    by_cases hn : i < z.nk
    · rw [ksGet_keyExpansion_of_lt _ hn, ksGet_keyExpansion_of_lt _ hn, h i hn]
    · have hn' := Nat.le_of_not_lt hn
      rw [ksGet_keyExpansion_eq ks hn' hi, ksGet_keyExpansion_eq ks' hn' hi, ih (i - z.nk) (by omega) (by omega),
        ih (i - 1) (by omega) (by omega)]

/-- A schedule is its own expansion (rule R216): its key is the key it was made of. -/
theorem keyExpansion_keyExpansion (z : KeySize) (ks : Vector Word 60) :
    keyExpansion z (keyExpansion z ks) = keyExpansion z ks := by
  apply ks_ext
  intro i _
  by_cases hi : i < z.kslen
  · exact ksGet_keyExpansion_congr (fun j hj => ksGet_keyExpansion_of_lt ks hj) i hi
  · exact ksGet_keyExpansion_of_ge _ (Nat.le_of_not_lt hi)

/-- Validity is kept where a valid schedule was valid before and KSZ and KS are kept. -/
theorem scheduleValid_of_kept {s t : State} (h : t.ksv = true → s.ksv = true ∧ t.ksz = s.ksz ∧ t.ks = s.ks)
    (hs : s.ScheduleValid) : t.ScheduleValid := by
  intro hk
  obtain ⟨hk', hz, hks⟩ := h hk
  rw [hz, hks]
  exact hs hk'

/-- Completing a command keeps the schedule valid: EXPAND leaves an expansion, which is its own, and no other command touches KS or KSV. -/
theorem exec_scheduleValid {i : Instr} {s t : State} (hx : exec i s = .next t) (hs : s.ScheduleValid) : t.ScheduleValid := by
  by_cases hi : i = .expand
  · subst hi
    cases hx
    exact fun _ => keyExpansion_keyExpansion s.ksz s.ks
  · obtain ⟨hks, hk⟩ := exec_keeps_schedule hx hi
    obtain ⟨_, _, _, _, rfl⟩ := exec_next hx
    exact scheduleValid_of_kept (s := s) (fun h => ⟨hk ▸ h, rfl, hks⟩) hs

/-- Settles O36: EXPAND leaves a schedule that is its own expansion; every other step that leaves KSV = 1 found it so and kept KSZ and KS. -/
theorem stepKeepsScheduleValid : Obligations.StepKeepsScheduleValid := by
  intro s t hs h
  rcases step_cases h with ⟨_, _, rfl⟩ | ⟨_, i, _, hx⟩ | ⟨off, _, es, _, _, rfl⟩ | ⟨off, _, v, es, _, _, rfl⟩ |
    ⟨a, es, _, _, rfl⟩
  · exact hs
  · exact exec_scheduleValid hx hs
  · obtain ⟨_, _, hr⟩ := hostRead_spec off { s with events := es }
    rw [hr]
    exact hs
  · exact scheduleValid_of_kept (s := { s with events := es }) hostWrite_keeps_schedule hs
  · exact nofun

/-! ### The invariant -/

/-- Settles O33: no error, no command in flight and KSV = 0. -/
theorem resetHasInvariant : Obligations.ResetHasInvariant where
  errorConsistent := ⟨fun _ => rfl, fun _ => rfl⟩
  pendAccepted := nofun
  scheduleValid := nofun

/-- The engine's turn never stops the machine while the command in flight is an accepted one (rules R56, R289). -/
theorem engineTurn_next_of_accepted {s : State} (h : s.PendAccepted) : ∃ t, engineTurn s = .next t := by
  cases hp : s.pend with
  | none => exact ⟨s, engineTurn_of_none hp⟩
  | some i => rw [engineTurn_of_some hp]; exact exec_of_wellFormed (h i hp).1 s

/-- A defined access is made (rules R82, R83). -/
theorem step_host_of_defined {s : State} {a : BusAccess} {es : List Event} (he : s.events = .host a :: es)
    (hd : a.Defined) : ∃ t, step s = .next t := by
  cases a with
  | read off size => exact ⟨_, step_read_of_defined he hd⟩
  | write off size v => exact ⟨_, step_write_of_defined he hd⟩

/-- A reset with no access or a defined one presented is made (rule R320). -/
theorem step_reset_of_defined {s : State} {a : Option BusAccess} {es : List Event} (he : s.events = .reset a :: es)
    (hd : ∀ b, a = some b → b.Defined) :
    step s = .next { State.reset with events := es, reply := resetReply a, draws := s.draws } := by
  have hn : a.bind BusAccess.refusal = none := Option.bind_eq_none_iff.mpr hd
  rw [step_of_cons he]
  simp only [handle, busReset, hn]

/-- A step answers a next state where the next access, if any, is a defined one and the command in flight an accepted one. -/
theorem step_next_of_defined {s : State} (hp : s.PendAccepted) (hd : s.NextAccessDefined) : ∃ t, step s = .next t := by
  have turn (he : s.EngineNext) : ∃ t, step s = .next t := by
    rw [step_of_engineNext he]
    exact engineTurn_next_of_accepted (pendAccepted_congr (t := { s with events := s.events.tail }) rfl rfl rfl hp)
  unfold State.NextAccessDefined at hd
  split at hd
  case h_1 a es he => exact step_host_of_defined he hd
  case h_2 a es he => exact ⟨_, step_reset_of_defined he (by simpa using hd)⟩
  case h_3 es he => exact ⟨_, step_reset_of_defined he (by simp)⟩
  case h_4 es he => exact turn (.inr (by rw [he]; rfl))
  case h_5 he => exact turn (.inl (by rw [he]; rfl))

/-- Settles O37: the step answers a next state (`step_next_of_defined`), which has each part of the invariant (O34 to O36). -/
theorem machineNeverStops : Obligations.MachineNeverStops := by
  intro s hs hd
  obtain ⟨t, ht⟩ := step_next_of_defined hs.pendAccepted hd
  exact ⟨t, ht, stepKeepsErrorConsistent s t hs.errorConsistent ht, stepKeepsPendAccepted s t hs.pendAccepted ht,
    stepKeepsScheduleValid s t hs.scheduleValid ht⟩

end Sys2Proof.Machine
end

section
/-! SUPPORT. The bits of CTRL and STATUS (rules R45, R48), the data registers of the window (rules R82, R83), the flat bytes of a block (rules R16,
R87) and the window's addresses (rule R10), then the statements about the host window (20_memory.md). -/

namespace Sys2Proof.Machine

/-! ### CTRL and STATUS as the host reads them (rules R45, R48) -/

/-- Each bit of CTRL (rule R45). -/
theorem ctrlValue_getLsbD (s : State) (i : Nat) :
    s.ctrlValue.getLsbD i = if i < 2 then s.ksz.bits.getLsbD i else decide (i = 4) && s.irqEn := by
  have high : 2 ≤ i → s.ksz.bits.getLsbD i = false := BitVec.getLsbD_of_ge _ _
  simp only [State.ctrlValue, BitVec.getLsbD_or, BitVec.getLsbD_shiftLeft, BitVec.getLsbD_setWidth, BitVec.getLsbD_ofBool]
  grind

/-- Each bit of STATUS (rule R48). -/
theorem statusValue_getLsbD (s : State) (i : Nat) :
    s.statusValue.getLsbD i =
      if i = 0 then s.busy else if i = 1 then s.done else if i = 2 then s.err else if i = 3 then s.ksv
      else decide (8 ≤ i) && s.errCode.bits.getLsbD (i - 8) := by
  have high : 4 ≤ i - 8 → s.errCode.bits.getLsbD (i - 8) = false := BitVec.getLsbD_of_ge _ _
  simp only [State.statusValue, BitVec.getLsbD_or, BitVec.getLsbD_shiftLeft, BitVec.getLsbD_setWidth, BitVec.getLsbD_ofBool]
  grind

/-- A CTRL read is exact, a command in flight or not (rules R82, R91). -/
theorem hostRead_ctrl_reply (s : State) : (hostRead 0x000 s).reply = some s.ctrlValue :=
  hostRead_reply_of_regAt (r := .ctrl) rfl (Bool.and_false _)

/-- A field of a word is known by its bits. -/
theorem extractLsb'_eq_of_bits {x : Word} {a n : Nat} {y : BitVec n}
    (h : ∀ i, i < n → x.getLsbD (a + i) = y.getLsbD i) : x.extractLsb' a n = y := by
  apply BitVec.eq_of_getLsbD_eq
  intro i hi
  rw [BitVec.getLsbD_extractLsb', decide_eq_true hi, Bool.true_and, h i hi]

/-- Settles O14: each field is read off the bits of CTRL and STATUS, and the numbers are the definitions'. -/
theorem ctrlAndStatusFields : Obligations.CtrlAndStatusFields := by
  refine ⟨fun s => ⟨⟨_, hostRead_ctrl_reply s, ?_, ?_, ctrlValue_getLsbD_four s, ?_⟩,
    ⟨_, hostRead_status_reply s, statusValue_getLsbD_zero s, statusValue_getLsbD_one s, statusValue_getLsbD_two s,
      statusValue_getLsbD s 3, ?_, ?_, ?_⟩⟩, by decide, by decide, by decide, by decide⟩
  all_goals
    apply extractLsb'_eq_of_bits
    intro i hi
    simp only [ctrlValue_getLsbD, statusValue_getLsbD, BitVec.ofNat_eq_ofNat, BitVec.getLsbD_zero]
    grind

/-! ### The data registers (rules R82, R83) -/

/-- Settles O16: the write of an idle engine to each register, and the columns of the block it leaves (`col_setCol`). -/
theorem dataRegisterWrites : Obligations.DataRegisterWrites := fun _ _ hp =>
  ⟨fun c => ⟨_, hostWrite_offset_of_idle (r := .state c) rfl hp, fun _ => col_setCol _ _ _ _⟩,
    fun c => ⟨_, hostWrite_offset_of_idle (r := .opb c) rfl hp, fun _ => col_setCol _ _ _ _⟩,
    hostWrite_offset_of_idle (r := .wa) rfl hp, hostWrite_offset_of_idle (r := .wb) rfl hp⟩

/-- On an idle engine a read at a register's offset is exact (rule R82). -/
theorem hostRead_offset_of_idle {r : Reg} {off : BitVec 9} {s : State} (ho : r.offset = some off) (hp : s.pend = none) :
    (hostRead off s).reply = some (readReg r s) :=
  hostRead_reply_of_regAt (regAt_offset r off ho) (by rw [State.busy, hp]; rfl)

/-- Settles O21: the write is made, the engine is still idle, and each data register reads as the word written. -/
theorem readReturnsLastWrite : Obligations.ReadReturnsLastWrite := by
  intro s r off v hp ho hctrl hstatus hcmd hid
  rw [hostWrite_offset_of_idle ho hp]
  cases r with
  | ctrl => exact absurd rfl hctrl
  | status => exact absurd rfl hstatus
  | cmd => exact absurd rfl hcmd
  | id => exact absurd rfl hid
  | unmapped => cases ho
  | wa | wb => exact hostRead_offset_of_idle ho hp
  | state c | opb c => rw [hostRead_offset_of_idle ho (by exact hp)]; simp [readReg, writeReg]
  | ks i => rw [hostRead_offset_of_idle ho (by exact hp)]; simp [readReg, writeReg, ksGet_ksSet]

/-! ### Flat bytes (rules R16, R87) -/

/-- Each flat byte of a block made of flat bytes is the one it was made of. -/
theorem flat_ofFlat (f : Fin 16 → Byte) (i : Fin 16) : (Block.ofFlat f).flat i = f i := by
  rw [Block.flat, Block.ofFlat, byte_ofMatrix]
  congr 1
  exact Fin.ext (Nat.div_add_mod i.val 4)

/-- A block is made of its flat bytes. -/
theorem ofFlat_flat (b : Block) : Block.ofFlat b.flat = b := by
  apply Block.ext_byte
  intro r c
  rw [Block.ofFlat, byte_ofMatrix, Block.flat]
  congr 1 <;> apply Fin.ext <;> simp only <;> omega

/-- Settles O22: a block and its flat bytes make each other, and each column is by definition four flat bytes in order. -/
theorem flatBytesAreColumnMajor : Obligations.FlatBytesAreColumnMajor := fun f => ⟨flat_ofFlat f, rfl, ofFlat_flat⟩

/-! ### The window's addresses (rules R10, R81) -/

/-- Settles O23: an address in the window is ENGINE_BASE plus an offset below 512, and an offset is no more than 9 bits. -/
theorem windowAtEngineBase : Obligations.WindowAtEngineBase := by
  refine ⟨Nat.mul_mod_right _ _, fun addr off => ?_⟩
  have hlt : off.toNat < 2 ^ 9 := off.isLt
  unfold windowOffset
  split_ifs with h
  · rw [Option.some.injEq, ← BitVec.toNat_inj, BitVec.toNat_ofNat]
    omega
  · exact ⟨nofun, by omega⟩

end Sys2Proof.Machine
end

section
/-! SUPPORT. The engine's step and runs of several (rules R56, R285, R320) and what each command writes (rules R42 to R54), then the statements about
the step and reset (10_state.md, 70_reset_and_hazards.md). -/

namespace Sys2Proof.Machine

/-- Settles O24: the engine's turn with a command in flight is its completion, and without one nothing. -/
theorem stepRunsTheCommandInFlight : Obligations.StepRunsTheCommandInFlight := fun s hn =>
  ⟨fun _ hp => (step_of_engineNext hn).trans (engineTurn_of_some (s := { s with events := s.events.tail }) hp),
    fun hp => (step_of_engineNext hn).trans (engineTurn_of_none (s := { s with events := s.events.tail }) hp)⟩

/-! ### Runs of several steps -/

/-- A run goes on from the state its first step answers. -/
theorem run_succ_of_next {s t : State} (n : Nat) (h : step s = .next t) : core.run (n + 1) s = core.run n t := by
  simp only [Host.Core.run, show core.step s = .next t from h]

/-- A run of one step is the step. -/
theorem run_one (s : State) : core.run 1 s = step s := by
  change core.run 1 s = core.step s
  simp only [Host.Core.run]
  cases core.step s <;> rfl

/-- The issue of a word has nothing to do with the events to come (rule R280). -/
theorem issue_with_other_events (v : Word) (s : State) (es : List Event) :
    issue v { s with events := es } = { issue v s with events := es } := by
  obtain he | he := Bool.eq_false_or_eq_true s.err
  · rw [issue_of_err he, issue_of_err (by exact he)]
  cases hd : decode v with
  | error e =>
    rw [issue_of_decode_error hd, issue_of_decode_error hd, recordError_eq, recordError_eq]
  | ok i =>
    have ha := acceptanceError_congr (s := s) (t := { s with events := es }) rfl rfl i
    cases hs : acceptanceError s i with
    | none => rw [issue_of_accepted he hd hs, issue_of_accepted (by exact he) hd (ha.trans hs)]
    | some code => rw [issue_of_refused he hd hs, issue_of_refused (by exact he) hd (ha.trans hs)]

/-- Settles O25: the first step is the issue of the word, the second the engine's turn on what it leaves. -/
theorem commandIsIssueThenCompletion : Obligations.CommandIsIssueThenCompletion := by
  intro s i es hp he
  have hw : step s = .next { issue (encode i) s with events := .engine :: es } := by
    rw [step_write_of_defined he ((defined_iff _).mpr ⟨rfl, by simp [BusAccess.offset]⟩), hostWrite_cmd_of_idle (by exact hp),
      issue_with_other_events]
  rw [run_succ_of_next 1 hw, run_one, step_of_cons (e := .engine) (es := es) rfl, runCommand,
    issue_with_other_events (encode i) s es]
  rfl

/-! ### A command in flight (rules R56, R285) -/

/-- A step on a read that answers a next state is that read (rule R82). -/
theorem step_read {s t : State} {off : BitVec 9} {size : BitVec 2} {es : List Event}
    (he : s.events = .host (.read off size) :: es) (h : step s = .next t) : t = hostRead off { s with events := es } := by
  rw [step_of_cons he] at h
  simp only [handle, busAccess] at h
  split at h <;> cases h
  rfl

/-- Settles O27: a read changes the model's own fields alone (`hostRead_spec`), a write DONE, ERR and ERRCODE alone (`hostWrite_of_busy`). -/
theorem inFlightStateIsFrozen : Obligations.InFlightStateIsFrozen := by
  intro s t i a es hp he h
  cases a with
  | read off size =>
    obtain ⟨_, _, hr⟩ := hostRead_spec off { s with events := es }
    rw [step_read he h, hr]
  | write off size v =>
    obtain ⟨_, _, _, hs⟩ := hostWrite_of_busy (off := off) (v := v) (s := { s with events := es }) (by rw [State.busy, hp]; rfl)
    rw [step_write he h, hs]

/-- The command in flight completes after any defined host accesses: each of them leaves it in flight. -/
theorem run_completes {i : Instr} (hw : i.wellFormed = true) (es : List Event) (s : State) (hp : s.pend = some i)
    (he : s.events = es) (hd : ∀ e ∈ es, ∃ a : BusAccess, e = .host a ∧ a.Defined) :
    ∃ t, core.run (es.length + 1) s = .next t ∧ t.pend = none ∧ t.done = true ∧ t.events = [] := by
  induction es generalizing s with
  | nil =>
    obtain ⟨t, hx⟩ := exec_of_wellFormed hw s
    refine ⟨t, ?_, ?_⟩
    · rw [List.length_nil, Nat.zero_add, run_one, step_of_nil he, engineTurn_of_some hp]
      exact hx
    · obtain ⟨_, _, _, _, rfl⟩ := exec_next hx
      exact ⟨rfl, rfl, he⟩
  | cons e es ih =>
    obtain ⟨⟨a, rfl, ha⟩, hrest⟩ := List.forall_mem_cons.mp hd
    obtain ⟨u, hu⟩ := step_host_of_defined he ha
    have hs := inFlightStateIsFrozen s u i a es hp he hu
    rw [List.length_cons, run_succ_of_next _ hu]
    exact ih u (by rw [hs]; exact hp) (by rw [hs]) hrest

/-- Settles O28: by induction on the accesses to come (`run_completes`). -/
theorem inFlightCommandCompletes : Obligations.InFlightCommandCompletes := fun s _ hp hw hd =>
  run_completes hw s.events s hp rfl hd

/-! ### What a command may write (rules R42, R43, R52, R54) -/

/-- Only the commands of these opcodes write STATE (rule R43). -/
theorem exec_keeps_state {i : Instr} {s t : State} (h : exec i s = .next t)
    (hi : opcodeOf i ∉ ([0x01, 0x02, 0x03, 0x04, 0x05, 0x06, 0x07, 0x10, 0x11, 0x13, 0x15] : List (BitVec 8))) :
    t.state = s.state := by
  cases i
  case nop | xorw | rotw | subw | expand => cases h; rfl
  case getcol | getrow | rcon => obtain ⟨_, _, rfl⟩ := completeAt_next h; rfl
  all_goals exact absurd (by simp [opcodeOf]) hi

/-- Only the commands of these opcodes write WA (rule R42). -/
theorem exec_keeps_wa {i : Instr} {s t : State} (h : exec i s = .next t)
    (hi : opcodeOf i ∉ ([0x12, 0x14, 0x16, 0x20, 0x21, 0x22] : List (BitVec 8))) : t.wa = s.wa := by
  cases i
  case getcol | getrow | xorw | rotw | subw | rcon => exact absurd (by simp [opcodeOf]) hi
  case addrk | setcol | setrow => obtain ⟨_, _, rfl⟩ := completeAt_next h; rfl
  all_goals cases h; rfl

/-- Settles O29: the frame of every command (`exec_next`), and the commands that write each of STATE, WA and KS. -/
theorem commandsWriteOnlyTheirRegisters : Obligations.CommandsWriteOnlyTheirRegisters := by
  intro i s t h
  have hstate := mt (exec_keeps_state h)
  have hwa := mt (exec_keeps_wa h)
  have hks : t.ks ≠ s.ks ∨ t.ksv ≠ s.ksv → i = .expand := by
    intro hne
    by_contra hi
    obtain ⟨hks, hksv⟩ := exec_keeps_schedule h hi
    exact hne.elim (· hks) (· hksv)
  obtain ⟨_, _, _, _, rfl⟩ := exec_next h
  exact ⟨rfl, rfl, rfl, rfl, rfl, rfl, rfl, rfl, rfl, rfl, rfl, fun h => not_not.mp (hstate h), fun h => not_not.mp (hwa h), hks⟩

/-! ### Reset (rule R320) -/

/-- Settles O32: the step on the reset is made, and its result is the reset state but for the events and the model's own fields. -/
theorem resetFromAnyState : Obligations.ResetFromAnyState := by
  intro s a es he hd
  refine ⟨_, step_reset_of_defined he hd, ⟨rfl, rfl, rfl, rfl, rfl, rfl, rfl, rfl, rfl, rfl, rfl, rfl⟩, rfl, rfl, ?_⟩
  rintro off size rfl
  rfl

end Sys2Proof.Machine
end

section
/-! SUPPORT. The completion of an F1 command at an index, commands that write STATE alone and the words of a transposed block (rules R150 to R157),
then the statements about the block algebra and the word commands (40_block_algebra.md, 42_key_schedule.md). -/

namespace Sys2Proof.Machine

/-- Settles O38: NOP is the completion alone. -/
theorem nopOnlyCompletes : Obligations.NopOnlyCompletes := fun _ => rfl

/-- An F1 command whose ARG is the number of an index runs at that index (rule R122). -/
theorem completeAt_ofNat {m : Nat} {f : Fin (m + 1) → State} (hm : m < 2 ^ 8) (k : Fin (m + 1)) :
    completeAt m (BitVec.ofNat 8 k.val) f = .next (f k).complete := by
  have hk : (BitVec.ofNat 8 k.val).toNat = k.val := by
    rw [BitVec.toNat_ofNat]
    omega
  have hle : (BitVec.ofNat 8 k.val).toNat ≤ m := by omega
  rw [completeAt_of_le hle, show (⟨_, Nat.lt_succ_of_le hle⟩ : Fin (m + 1)) = k from Fin.ext hk]

/-- Settles O59: an F0 command is always well formed, and an ARG above an F1 command's range has no index. -/
theorem argOutOfRangeFaults : Obligations.ArgOutOfRangeFaults := by
  intro i s h
  cases i
  case addrk | getcol | setcol | getrow | setrow | rcon =>
    exact completeAt_of_lt (Nat.lt_of_not_le (of_decide_eq_false h))
  all_goals cases h

/-! ### TRANSP and XORB (rules R151, R152) -/

/-- Two commands that write STATE alone, the second from what the first leaves giving the old value: the second undoes the first. -/
theorem undoes_of_setState {i j : Instr} {f g : State → Block} (hi : ∀ s : State, exec i s = .next (s.setState (f s)).complete)
    (hj : ∀ s : State, exec j s = .next (s.setState (g s)).complete) (h : ∀ s : State, g (s.setState (f s)).complete = s.state) :
    Undoes j i := fun s => ⟨_, _, hi s, hj _, h s⟩

@[simp] theorem transpose_transpose (b : Block) : transpose (transpose b) = b :=
  Block.ext_byte fun r c => by simp

@[simp] theorem xor_xor_self (a b : Block) : (a.xor b).xor b = a :=
  Block.ext_col fun c => by simp

/-- Settles O39: `byte_transpose` gives each byte, and the transposed matrix transposes back. -/
theorem transpResult : Obligations.TranspResult := fun _ =>
  ⟨_, rfl, fun _ _ => byte_transpose _ _ _, fun _ => byte_transpose _ _ _,
    undoes_of_setState (fun _ => rfl) (fun _ => rfl) fun s => transpose_transpose s.state⟩

/-- Settles O40: `col_xor` gives each column, and the same block exclusive-ored twice is nothing. -/
theorem xorbResult : Obligations.XorbResult := fun _ =>
  ⟨_, rfl, fun _ => col_xor _ _ _,
    undoes_of_setState (fun _ => rfl) (fun _ => rfl) fun s => xor_xor_self s.state s.opb⟩

/-! ### Columns and rows (rules R153 to R156) -/

section
variable (s : State) (n : Fin 4)

theorem exec_getcol : exec (.getcol (BitVec.ofNat 8 n.val)) s = .next (s.setWa (s.state.col n)).complete :=
  completeAt_ofNat (by decide) n

theorem exec_setcol : exec (.setcol (BitVec.ofNat 8 n.val)) s = .next (s.setState (s.state.setCol n s.wa)).complete :=
  completeAt_ofNat (by decide) n

theorem exec_getrow : exec (.getrow (BitVec.ofNat 8 n.val)) s = .next (s.setWa (s.state.row n)).complete :=
  completeAt_ofNat (by decide) n

theorem exec_setrow : exec (.setrow (BitVec.ofNat 8 n.val)) s = .next (s.setState (s.state.setRow n s.wa)).complete :=
  completeAt_ofNat (by decide) n

end

/-- Each byte of a block with a column replaced (rule R154). -/
theorem byte_setCol (b : Block) (n r c : Fin 4) (w : Word) :
    (b.setCol n w).byte r c = if c = n then lane w r else b.byte r c := by
  rw [← lane_col, col_setCol, apply_ite (lane · r), lane_col]

/-- Settles O41: the column is read as it stands, and the row lane by lane (`lane_row`). -/
theorem getColumnAndRow : Obligations.GetColumnAndRow := fun s n =>
  ⟨⟨_, exec_getcol s n, fun _ => rfl⟩, ⟨_, exec_getrow s n, fun _ => lane_row _ _ _⟩⟩

/-- Settles O42: `byte_setCol` and `byte_setRow` give each byte of STATE, replaced or kept. -/
theorem setColumnAndRow : Obligations.SetColumnAndRow := fun s n =>
  ⟨⟨_, exec_setcol s n, fun _ _ => byte_setCol _ _ _ _ _⟩, ⟨_, exec_setrow s n, fun _ _ => byte_setRow _ _ _ _ _⟩⟩

/-- A column put back where it was read changes nothing. -/
theorem setCol_col (b : Block) (n : Fin 4) : b.setCol n (b.col n) = b :=
  Block.ext_col fun c => by rw [col_setCol]; split_ifs with h <;> [rw [h]; rfl]

/-- A row put back where it was read changes nothing. -/
theorem setRow_row (b : Block) (n : Fin 4) : b.setRow n (b.row n) = b :=
  Block.ext_byte fun r c => by rw [byte_setRow, lane_row]; split_ifs with h <;> [rw [h]; rfl]

/-- A row is the column of the transposed block (rule R155). -/
theorem col_transpose (b : Block) (n : Fin 4) : (transpose b).col n = b.row n :=
  word_ext fun k => by rw [lane_col, byte_transpose, lane_row]

/-- Settles O43: what is read and put back is the same, and a row is a column of the transposed block. -/
theorem rowAndColumnRoundTrips : Obligations.RowAndColumnRoundTrips := by
  intro n k
  refine ⟨fun s => ⟨_, _, exec_getcol s n, exec_setcol _ n, setCol_col s.state n⟩,
    fun s => ⟨_, _, exec_getrow s n, exec_setrow _ n, setRow_row s.state n⟩,
    fun s => ⟨_, _, _, _, exec_getrow s n, rfl, exec_getcol _ n, rfl, ?_⟩⟩
  simp only [complete_state, setWa_state, setState_state, transpose_transpose, col_transpose]
  rfl

/-! ### The word commands (rules R157, R211 to R215) -/

/-- RotWord is the rotation of the word left by one byte (rule R211). -/
theorem rotWord_eq_rotateLeft (w : Word) : rotWord w = w.rotateLeft 8 := by
  apply BitVec.eq_of_getLsbD_eq
  intro i hi
  simp only [rotWord, word_getLsbD, lane_getLsbD, BitVec.getLsbD_rotateLeft]
  grind

theorem exec_rcon (s : State) (n : Fin 11) :
    exec (.rcon (BitVec.ofNat 8 n.val)) s = .next (s.setWa (s.wa ^^^ rconWord n.val)).complete :=
  completeAt_ofNat (by decide) n

/-- Settles O44: the lanes of the rotated, the substituted and the round-constant word. -/
theorem wordCommandResults : Obligations.WordCommandResults := by
  refine fun s => ⟨rfl, ⟨_, rfl, rotWord_eq_rotateLeft _, fun _ => lane_rotWord _ _⟩, ⟨_, rfl, fun _ => lane_subWord _ _⟩,
    fun n => ⟨_, exec_rcon s n, ?_, fun k hk => ?_⟩⟩
  · rw [setWa_wa, lane_xor, lane_rconWord, if_pos rfl]
  · rw [setWa_wa, lane_xor, lane_rconWord, if_neg hk, BitVec.ofNat_eq_ofNat, BitVec.xor_zero]

end Sys2Proof.Machine
end

section
/-! SUPPORT. The laws of the general product (rule R181), its agreement with the fixed products (rules R182, R183), and the tables checked entry by
entry (rules R184 to R189), then the statements about the tables and field arithmetic (41_tables_gf.md). -/

namespace Sys2Proof.Machine

/-! ### The general product (rule R181) -/

@[simp] theorem xtimes_zero (k : Nat) : xtimes k 0 = 0 := by
  induction k with
  | zero => rfl
  | succ k ih => rw [xtimes, ih, xtime_zero]

/-- {00} is the zero on the left. -/
theorem zero_gmul (b : Byte) : gmul 0 b = 0 := by
  have bits (k : Nat) : gmulBits 0 b k = 0 := by
    induction k with
    | zero => rfl
    | succ k ih => rw [gmulBits, ih, xtimes_zero, ite_self]; rfl
  exact bits 8

/-- The product is linear on the left. -/
theorem xor_gmul (a a' b : Byte) : gmul (a ^^^ a') b = gmul a b ^^^ gmul a' b := by
  have bits (k : Nat) : gmulBits (a ^^^ a') b k = gmulBits a b k ^^^ gmulBits a' b k := by
    induction k with
    | zero => exact BitVec.xor_zero.symm
    | succ k ih =>
      simp only [gmulBits, ih, xtimes_xor]
      split
      · ac_rfl
      · simp
  exact bits 8

/-- Doubling comes out of every repeated doubling. -/
theorem xtimes_xtime (k : Nat) (a : Byte) : xtimes k (xtime a) = xtime (xtimes k a) := by
  induction k with
  | zero => rfl
  | succ k ih => rw [xtimes, ih]; rfl

/-- Doubling comes out of a product on the left. -/
theorem xtime_gmul (a b : Byte) : gmul (xtime a) b = xtime (gmul a b) := by
  have bits (k : Nat) : gmulBits (xtime a) b k = xtime (gmulBits a b k) := by
    induction k with
    | zero => exact xtime_zero.symm
    | succ k ih =>
      simp only [gmulBits, ih, xtimes_xtime, xtime_xor]
      split
      · rfl
      · rw [show xtime 0 = 0 from xtime_zero]
  exact bits 8

theorem xtimes_gmul (k : Nat) (a b : Byte) : gmul (xtimes k a) b = xtimes k (gmul a b) := by
  induction k with
  | zero => rfl
  | succ k ih => rw [xtimes, xtime_gmul, ih]; rfl

/-- A product multiplied again is a sum of doublings of the product: by recursion on the bits of the first factor. -/
theorem gmul_gmulBits (a b c : Byte) (k : Nat) : gmul (gmulBits a b k) c = gmulBits (gmul a c) b k := by
  induction k with
  | zero => exact zero_gmul c
  | succ k ih =>
    simp only [gmulBits]
    rw [xor_gmul, ih]
    split
    · rw [xtimes_gmul]
    · rw [zero_gmul]

/-- Two factors on the right may change places. -/
theorem gmul_right_comm (a b c : Byte) : gmul (gmul a b) c = gmul (gmul a c) b :=
  gmul_gmulBits a b c 8

/-- {01} is the unit on the left: byte by byte. -/
theorem one_gmul : ∀ a : Byte, gmul 0x01 a = a := by decide

/-- The product is commutative: both factors stand to the right of {01}. -/
theorem gmul_comm (a b : Byte) : gmul a b = gmul b a :=
  calc gmul a b = gmul (gmul 0x01 a) b := by rw [one_gmul]
    _ = gmul (gmul 0x01 b) a := gmul_right_comm _ _ _
    _ = gmul b a := by rw [one_gmul]

/-- The product is associative. -/
theorem gmul_assoc (a b c : Byte) : gmul (gmul a b) c = gmul a (gmul b c) :=
  calc gmul (gmul a b) c = gmul (gmul b a) c := by rw [gmul_comm a b]
    _ = gmul (gmul b c) a := gmul_right_comm _ _ _
    _ = gmul a (gmul b c) := gmul_comm _ _

/-- {01} is the unit on the right as well. -/
theorem gmul_one (a : Byte) : gmul a 0x01 = a := (gmul_comm a 0x01).trans (one_gmul a)

/-- {02} doubles (rule R181). -/
theorem gmul_two (a : Byte) : gmul a 0x02 = xtime a := by
  simp [gmul, gmulBits, xtimes]

/-- {03} is doubling plus the value (rule R182). -/
theorem gmul_three (a : Byte) : gmul a 0x03 = xtime a ^^^ a := by
  simp [gmul, gmulBits, xtimes, BitVec.xor_comm]

/-- Settles O46: commutativity and associativity from the exchange of two factors (`gmul_right_comm`), the rest from the definition. -/
theorem fieldMultiplicationLaws : Obligations.FieldMultiplicationLaws :=
  ⟨gmul_comm, gmul_assoc, fun a => ⟨gmul_one a, zero_gmul a, gmul_two a, gmul_three a⟩⟩

/-! ### The products by the inverse coefficients (rule R183) -/

theorem gmul_nine (a : Byte) : gmul a 0x09 = mul09 a := by
  simp [gmul, gmulBits, xtimes, mul09, BitVec.xor_comm]

theorem gmul_eleven (a : Byte) : gmul a 0x0b = mul0b a := by
  simp [gmul, gmulBits, xtimes, mul0b, BitVec.xor_comm, BitVec.xor_assoc]

theorem gmul_thirteen (a : Byte) : gmul a 0x0d = mul0d a := by
  simp [gmul, gmulBits, xtimes, mul0d, BitVec.xor_comm, BitVec.xor_assoc]

theorem gmul_fourteen (a : Byte) : gmul a 0x0e = mul0e a := by
  simp [gmul, gmulBits, xtimes, mul0e, BitVec.xor_comm, BitVec.xor_assoc]

/-- Settles O47: the sums of doublings are the definitions, and each agrees with the general product's. -/
theorem inverseCoefficientProducts : Obligations.InverseCoefficientProducts :=
  ⟨fun a => ⟨rfl, rfl, rfl, rfl, (gmul_nine a).symm, (gmul_eleven a).symm, (gmul_thirteen a).symm, (gmul_fourteen a).symm⟩,
    by decide⟩

/-! ### The substitution tables (rules R184 to R187) -/

/-- The inverse of the affine map of rule R185. -/
def invAffine (b : Byte) : Byte := b.rotateRight 2 ^^^ b.rotateRight 5 ^^^ b.rotateRight 7 ^^^ 0x05

/-- Bit k of a byte rotated right by j is its bit (k + j) mod 8. -/
theorem rotateRight_getLsbD (b : Byte) (j : Nat) {k : Nat} (hk : k < 8) :
    (b.rotateRight j).getLsbD k = b.getLsbD ((k + j) % 8) := by
  rw [BitVec.getLsbD_rotateRight, cond_eq_ite]
  split_ifs with h <;> rw [decide_eq_true_eq] at h
  · congr 1; omega
  · rw [decide_eq_true hk, Bool.true_and]
    congr 1; omega

/-- Each bit of the affine map is the sum of five bits and the constant's (rule R185). -/
theorem affine_getLsbD (b : Byte) (k : Fin 8) :
    (affine b).getLsbD k.val =
      (b.getLsbD k.val ^^ b.getLsbD ((k.val + 4) % 8) ^^ b.getLsbD ((k.val + 5) % 8) ^^ b.getLsbD ((k.val + 6) % 8) ^^
        b.getLsbD ((k.val + 7) % 8) ^^ (0x63 : Byte).getLsbD k.val) := by
  simp only [affine, BitVec.getLsbD_xor, rotateRight_getLsbD b _ k.isLt]

/-- The two maps are inverse: byte by byte. -/
theorem affine_invAffine : ∀ b : Byte, affine (invAffine b) = b := by decide

/-- What the affine map makes S(x) of is the field inverse of x: entry by entry (rule R185). -/
theorem gmul_invAffine_sBox : ∀ x : Byte, if x = 0 then invAffine (sBox x) = 0 else gmul x (invAffine (sBox x)) = 0x01 := by
  decide

/-- Settles O48: the inverse is what the affine map takes to S(x). -/
theorem sBoxIsInverseThenAffine : Obligations.SBoxIsInverseThenAffine := fun x =>
  ⟨invAffine (sBox x), gmul_invAffine_sBox x, fun k => by rw [← affine_getLsbD, affine_invAffine]⟩

/-- Settles O49: entry by entry. -/
theorem sBoxPermutation : Obligations.SBoxPermutation := by
  unfold Obligations.SBoxPermutation
  decide

/-! ### The round constants (rule R189) -/

/-- From index 2 on the constant doubles (rule R189). -/
theorem rcByte_eq_xtime {j : Nat} (hj : 2 ≤ j) : rcByte j = xtime (rcByte (j - 1)) := by
  obtain ⟨m, rfl⟩ := Nat.exists_eq_add_of_le' hj
  rfl

/-- Settles O60: the eleven constants are computed, and `lane_rconWord` gives the lanes of each word. -/
theorem roundConstants : Obligations.RoundConstants := by
  unfold Obligations.RoundConstants
  intro rc j
  have hrc : rcByte j.val = rc j := by revert j; decide
  exact ⟨hrc, (lane_rconWord _ 0).trans hrc, fun k hk => (lane_rconWord _ k).trans (if_neg hk), rcByte_eq_xtime⟩

end Sys2Proof.Machine
end

section
/-! SUPPORT. Accepted runs built command by command (rules R56, R280), then the statements about the key schedule (42_key_schedule.md). -/

namespace Sys2Proof.Machine

/-- Settles O51: the schedule is determined by the key words (`ksGet_keyExpansion_congr`) and is its own expansion. -/
theorem expandReadsOnlyTheKey : Obligations.ExpandReadsOnlyTheKey := by
  refine ⟨fun s t s' t' hs ht hz h => ?_, fun s => ⟨_, _, rfl, rfl, keyExpansion_keyExpansion s.ksz s.ks⟩⟩
  cases hs
  cases ht
  simp only [complete_ks, setSchedule_ks, ← hz]
  exact ksGet_keyExpansion_congr h

/-! ### Accepted runs (rules R56, R280) -/

/-- The completion of a command neither reads PEND nor keeps it (rule R56). -/
theorem exec_with_other_pend (i : Instr) (s : State) (p : Option Instr) : exec i { s with pend := p } = exec i s := by
  cases i
  case addrk | getcol | setcol | getrow | setrow | rcon =>
    simp only [exec, execAddrk, execGetcol, execSetcol, execGetrow, execSetrow, execRcon, completeAt]
    split <;> rfl
  all_goals rfl

/-- A command that an idle engine without error accepts and completes begins an accepted run. -/
theorem acceptedRun_cons_of_exec {i : Instr} {is : List Instr} {s t u : State} (hp : s.pend = none) (he : s.err = false)
    (hw : i.wellFormed = true) (ha : ∀ n, i = .addrk n → n.toNat ≤ s.ksz.nr ∧ s.ksv = true) (hx : exec i s = .next u)
    (hr : AcceptedRun is u t) : AcceptedRun (i :: is) s t :=
  acceptedRun_cons.mpr ⟨hp, goodCommandIsAccepted i s hw hp he ha, u, (exec_with_other_pend i s _).trans hx, hr⟩

/-- The same of the last command. -/
theorem acceptedRun_singleton {i : Instr} {s u : State} (hp : s.pend = none) (he : s.err = false)
    (hw : i.wellFormed = true) (ha : ∀ n, i = .addrk n → n.toNat ≤ s.ksz.nr ∧ s.ksv = true) (hx : exec i s = .next u) :
    AcceptedRun [i] s u :=
  acceptedRun_cons_of_exec hp he hw ha hx rfl

/-! ### The schedule by word commands (rule R220) -/

/-- Index i of a schedule word names a round constant. -/
theorem div_nk_le {z : KeySize} {i : Nat} (hi : i < z.kslen) : i / z.nk ≤ 10 := by
  cases z <;> simp only [KeySize.kslen, KeySize.nr, KeySize.nk] at * <;> omega

/-- The commands of rule R220 for index i. -/
def scheduleCommands (z : KeySize) (i : Nat) : List Instr :=
  if i % z.nk = 0 then [.rotw, .subw, .rcon (BitVec.ofNat 8 (i / z.nk)), .xorw]
  else if z.nk = 8 ∧ i % 8 = 4 then [.subw, .xorw]
  else [.xorw]

/-- The two ways the rules name the SubWord branch. -/
theorem subWord_branch_iff (z : KeySize) (i : Nat) : (z.nk = 8 ∧ i % 8 = 4) ↔ (6 < z.nk ∧ i % z.nk = 4) := by
  cases z <;> simp [KeySize.nk]

/-- The commands of rule R220 leave in WA what the expansion makes of the words in WA and WB (rule R217). -/
theorem acceptedRun_scheduleCommands {s : State} {i : Nat} (hp : s.pend = none) (he : s.err = false)
    (hi : i < s.ksz.kslen) :
    ∃ t, AcceptedRun (scheduleCommands s.ksz i) s t ∧ t.wa = s.wb ^^^ expandTemp s.ksz i s.wa := by
  unfold scheduleCommands expandTemp
  simp only [subWord_branch_iff]
  split_ifs with h0 h4
  · have hle := div_nk_le hi
    refine ⟨_, acceptedRun_cons_of_exec hp he rfl nofun rfl (acceptedRun_cons_of_exec rfl he rfl nofun rfl
      (acceptedRun_cons_of_exec rfl he ?_ nofun (exec_rcon _ ⟨_, Nat.lt_succ_of_le hle⟩)
        (acceptedRun_singleton rfl he rfl nofun rfl))), BitVec.xor_comm _ _⟩
    exact decide_eq_true ((Nat.mod_le _ _).trans hle)
  · exact ⟨_, acceptedRun_cons_of_exec hp he rfl nofun rfl (acceptedRun_singleton rfl he rfl nofun rfl), BitVec.xor_comm _ _⟩
  · exact ⟨_, acceptedRun_singleton hp he rfl nofun rfl, BitVec.xor_comm _ _⟩

/-- Settles O52: the two writes put words i - 1 and i - Nk in WA and WB, and the commands make of them what the expansion does. -/
theorem wordCommandsComputeTheSchedule : Obligations.WordCommandsComputeTheSchedule := by
  intro s i hp he hn hi w nk commands
  rw [hostWrite_offset_of_idle (r := .wa) rfl hp, hostWrite_offset_of_idle (r := .wb) rfl (by exact hp)]
  obtain ⟨t, hrun, hwa⟩ := acceptedRun_scheduleCommands
    (s := { s with wa := ksGet w (i - 1), wb := ksGet w (i - nk) }) hp he hi
  exact ⟨t, hrun, hwa.trans (ksGet_keyExpansion_eq s.ks hn hi).symm⟩

end Sys2Proof.Machine
end

section
/-! SUPPORT. The products of MixColumns and its inverse (rule R247), the inverse and commuting transforms (rule R248), and the blocks the cipher
sequences pass through (rules R270, R271), then the statements about the round transforms (43_round_transform.md). -/

namespace Sys2Proof.Machine

/-! ### Each transform (rules R240 to R246) -/

/-- Settles O53: `byte_subBytes` and `byte_invSubBytes` give each byte. -/
theorem subBytesResults : Obligations.SubBytesResults := fun _ =>
  ⟨⟨_, rfl, fun _ _ => byte_subBytes _ _ _⟩, ⟨_, rfl, fun _ _ => byte_invSubBytes _ _ _⟩⟩

/-- A column index given mod 4 is the sum of `Fin 4`. -/
theorem eq_add_of_val {c r d : Fin 4} (hd : d.val = (c.val + r.val) % 4) : d = c + r :=
  Fin.ext (hd.trans (Fin.val_add c r).symm)

/-- Settles O54: the index mod 4 is the sum in `Fin 4`, at which `byte_shiftRows` and `byte_invShiftRows` read. -/
theorem shiftRowsResults : Obligations.ShiftRowsResults := by
  refine fun s => ⟨⟨_, rfl, fun r c d hd => ?_⟩, ⟨_, rfl, fun r c d hd => ?_⟩⟩
  · rw [eq_add_of_val hd]
    exact byte_shiftRows _ _ _
  · rw [eq_add_of_val hd]
    exact (byte_invShiftRows _ _ _).trans (by rw [add_sub_cancel_right])

/-! ### MixColumns as a matrix over GF(2^8) (rules R244, R245, R247) -/

/-- The matrix M of rule R247, by rows. -/
def mixMatrix : Fin 4 → Fin 4 → Byte :=
  ![![0x02, 0x03, 0x01, 0x01], ![0x01, 0x02, 0x03, 0x01], ![0x01, 0x01, 0x02, 0x03], ![0x03, 0x01, 0x01, 0x02]]

/-- The matrix M⁻¹ of rule R247, by rows. -/
def invMixMatrix : Fin 4 → Fin 4 → Byte :=
  ![![0x0e, 0x0b, 0x0d, 0x09], ![0x09, 0x0e, 0x0b, 0x0d], ![0x0d, 0x09, 0x0e, 0x0b], ![0x0b, 0x0d, 0x09, 0x0e]]

/-- A row of a matrix times a column, over GF(2^8). -/
def rowProduct (m a : Fin 4 → Byte) : Byte :=
  gmul (m 0) (a 0) ^^^ gmul (m 1) (a 1) ^^^ gmul (m 2) (a 2) ^^^ gmul (m 3) (a 3)

/-- MixColumns multiplies a column by M (rules R244, R247). -/
theorem lane_mixColumn (w : Word) (r : Fin 4) : lane (mixColumn w) r = rowProduct (mixMatrix r) (lane w) := by
  simp only [rowProduct, gmul_comm _ (lane w _)]
  match r with
  | 0 | 1 | 2 | 3 =>
    simp only [mixColumn, lane_word_zero, lane_word_one, lane_word_two, lane_word_three, mixMatrix, Matrix.cons_val,
      gmul_one, gmul_two, gmul_three, mul03]

/-- Its inverse multiplies a column by M⁻¹ (rules R245, R247). -/
theorem lane_invMixColumn (w : Word) (r : Fin 4) : lane (invMixColumn w) r = rowProduct (invMixMatrix r) (lane w) := by
  simp only [rowProduct, gmul_comm _ (lane w _)]
  match r with
  | 0 | 1 | 2 | 3 =>
    simp only [invMixColumn, lane_word_zero, lane_word_one, lane_word_two, lane_word_three, invMixMatrix, Matrix.cons_val,
      gmul_nine, gmul_eleven, gmul_thirteen, gmul_fourteen]

/-- Settles O55: each column is multiplied by the rule's matrix (`lane_mixColumn`, `lane_invMixColumn`). -/
theorem mixColumnsResults : Obligations.MixColumnsResults := by
  unfold Obligations.MixColumnsResults
  intro m mInv s
  refine ⟨⟨_, rfl, fun r c => ?_⟩, ⟨_, rfl, fun r c => ?_⟩⟩
  · rw [setState_state, ← lane_col, col_mixColumns]
    exact lane_mixColumn _ r
  · rw [setState_state, ← lane_col, col_invMixColumns]
    exact lane_invMixColumn _ r

/-- Multiplying by two matrices is multiplying by their product. -/
theorem rowProduct_rowProduct (p a : Fin 4 → Byte) (q : Fin 4 → Fin 4 → Byte) :
    rowProduct p (fun k => rowProduct (q k) a) = rowProduct (fun j => rowProduct p fun k => q k j) a := by
  have gmul_xor (a b b' : Byte) : gmul a (b ^^^ b') = gmul a b ^^^ gmul a b' := by
    rw [gmul_comm, xor_gmul, gmul_comm b, gmul_comm b']
  simp only [rowProduct, gmul_xor, xor_gmul, gmul_assoc]
  ac_rfl

/-- A row of the unit matrix picks the byte at its index. -/
theorem rowProduct_unit (a : Fin 4 → Byte) (r : Fin 4) : rowProduct (fun j => if j = r then 0x01 else 0) a = a r := by
  match r with
  | 0 | 1 | 2 | 3 =>
    simp only [rowProduct, reduceIte, Fin.reduceEq, one_gmul, zero_gmul]
    simp

/-- Multiplying by a matrix and then by its inverse changes nothing. -/
theorem rowProduct_of_inverse {p q : Fin 4 → Fin 4 → Byte}
    (h : ∀ r j, rowProduct (p r) (fun k => q k j) = if j = r then 0x01 else 0) (r : Fin 4) (a : Fin 4 → Byte) :
    rowProduct (p r) (fun k => rowProduct (q k) a) = a r := by
  simp only [rowProduct_rowProduct, h, rowProduct_unit]

/-- M⁻¹ is the inverse of M on the left: the sixteen products of a row and a column. -/
theorem invMixMatrix_mul_mixMatrix :
    ∀ r j, rowProduct (invMixMatrix r) (fun k => mixMatrix k j) = if j = r then 0x01 else 0 := by decide

/-- M⁻¹ is the inverse of M on the right. -/
theorem mixMatrix_mul_invMixMatrix :
    ∀ r j, rowProduct (mixMatrix r) (fun k => invMixMatrix k j) = if j = r then 0x01 else 0 := by decide

@[simp] theorem invMixColumn_mixColumn (w : Word) : invMixColumn (mixColumn w) = w :=
  word_ext fun r => by
    rw [lane_invMixColumn, funext (lane_mixColumn w), rowProduct_of_inverse invMixMatrix_mul_mixMatrix]

@[simp] theorem mixColumn_invMixColumn (w : Word) : mixColumn (invMixColumn w) = w :=
  word_ext fun r => by
    rw [lane_mixColumn, funext (lane_invMixColumn w), rowProduct_of_inverse mixMatrix_mul_invMixMatrix]

/-! ### ADDRK (rule R246) -/

/-- No key size has more than 14 rounds (rule R46). -/
theorem nr_le (z : KeySize) : z.nr ≤ 14 := by cases z <;> decide

/-- Settles O56: the round is at most 14, and `col_xor` and `col_roundKey` give each column. -/
theorem addRoundKeyResult : Obligations.AddRoundKeyResult := by
  intro s n hn
  exact ⟨_, completeAt_of_le (hn.trans (nr_le s.ksz)), fun c => by simp⟩

/-! ### Inverse and commuting transforms (rule R248) -/

@[simp] theorem invSBox_sBox (x : Byte) : invSBox (sBox x) = x := (sBoxPermutation x).1

@[simp] theorem sBox_invSBox (x : Byte) : sBox (invSBox x) = x := (sBoxPermutation x).2.1

@[simp] theorem invSubBytes_subBytes (b : Block) : invSubBytes (subBytes b) = b :=
  Block.ext_byte fun r c => by simp

@[simp] theorem subBytes_invSubBytes (b : Block) : subBytes (invSubBytes b) = b :=
  Block.ext_byte fun r c => by simp

@[simp] theorem invShiftRows_shiftRows (b : Block) : invShiftRows (shiftRows b) = b :=
  Block.ext_byte fun r c => by simp

@[simp] theorem shiftRows_invShiftRows (b : Block) : shiftRows (invShiftRows b) = b :=
  Block.ext_byte fun r c => by simp

theorem subBytes_shiftRows (b : Block) : subBytes (shiftRows b) = shiftRows (subBytes b) :=
  Block.ext_byte fun r c => by simp

theorem subBytes_invShiftRows (b : Block) : subBytes (invShiftRows b) = invShiftRows (subBytes b) :=
  Block.ext_byte fun r c => by simp

@[simp] theorem invMixColumns_mixColumns (b : Block) : invMixColumns (mixColumns b) = b :=
  Block.ext_col fun c => by simp

@[simp] theorem mixColumns_invMixColumns (b : Block) : mixColumns (invMixColumns b) = b :=
  Block.ext_col fun c => by simp

/-- Two commands that put STATE through maps that commute give the same in either order. -/
theorem commute_of_setState {i j : Instr} {f g : Block → Block}
    (hi : ∀ s : State, exec i s = .next (s.setState (f s.state)).complete)
    (hj : ∀ s : State, exec j s = .next (s.setState (g s.state)).complete) (h : ∀ b, f (g b) = g (f b)) :
    CommandsCommute i j := by
  refine fun s => ⟨_, _, _, hi s, hj _, hj s, (hi _).trans ?_⟩
  simp only [complete_state, setState_state, h]
  rfl

/-- ADDRK undoes itself: the same round key is exclusive-ored twice (rule R248). -/
theorem addrk_undoes_addrk {n : BitVec 8} (hn : n.toNat ≤ 14) : Undoes (.addrk n) (.addrk n) :=
  undoes_of_setState (fun _ => completeAt_of_le hn) (fun _ => completeAt_of_le hn) fun _ => xor_xor_self _ _

/-- Settles O57: each pair is a pair of inverse or of commuting maps of blocks. -/
theorem inversePairs : Obligations.InversePairs := by
  have undoes {i j : Instr} {f g : Block → Block} (hi : ∀ s : State, exec i s = .next (s.setState (f s.state)).complete)
      (hj : ∀ s : State, exec j s = .next (s.setState (g s.state)).complete) (h : ∀ b, g (f b) = b) : Undoes j i :=
    undoes_of_setState hi hj fun s => h s.state
  refine ⟨undoes (fun _ => rfl) (fun _ => rfl) invSubBytes_subBytes, undoes (fun _ => rfl) (fun _ => rfl) subBytes_invSubBytes,
    undoes (fun _ => rfl) (fun _ => rfl) invShiftRows_shiftRows, undoes (fun _ => rfl) (fun _ => rfl) shiftRows_invShiftRows,
    undoes (fun _ => rfl) (fun _ => rfl) invMixColumns_mixColumns, undoes (fun _ => rfl) (fun _ => rfl) mixColumns_invMixColumns,
    fun _ => addrk_undoes_addrk, commute_of_setState (fun _ => rfl) (fun _ => rfl) subBytes_shiftRows,
    commute_of_setState (fun _ => rfl) (fun _ => rfl) subBytes_invShiftRows,
    fun s => ⟨_, _, _, _, rfl, rfl, rfl, rfl, ?_⟩⟩
  simp

/-! ### The cipher on blocks (rules R270, R271) -/

/-- What a command of the cipher sequences makes of STATE, given KS; other commands play no part in it. -/
def blockStep (ks : Vector Word 60) (b : Block) : Instr → Block
  | .subb => subBytes b
  | .isubb => invSubBytes b
  | .shrow => shiftRows b
  | .ishrow => invShiftRows b
  | .mixcol => mixColumns b
  | .imixcol => invMixColumns b
  | .addrk n =>
    match argIndex 14 n with
    | some k => b.xor (roundKey ks k)
    | none => b
  | .nop | .transp | .xorb | .getcol _ | .setcol _ | .getrow _ | .setrow _ | .xorw | .rotw | .subw | .rcon _ | .expand => b

/-- What a sequence of them makes of STATE. -/
def blockAfter (ks : Vector Word 60) (is : List Instr) (b : Block) : Block := is.foldl (blockStep ks) b

/-- A command of the cipher sequences, ADDRK with its round within Nr. -/
def roundCommand (z : KeySize) : Instr → Bool
  | .subb | .isubb | .shrow | .ishrow | .mixcol | .imixcol => true
  | .addrk n => decide (n.toNat ≤ z.nr)
  | .nop | .transp | .xorb | .getcol _ | .setcol _ | .getrow _ | .setrow _ | .xorw | .rotw | .subw | .rcon _ | .expand => false

/-- A command of the cipher completes with `blockStep` of STATE, and nothing else but PEND and DONE changed (rules R240 to R246). -/
theorem exec_of_roundCommand {i : Instr} {s : State} (h : roundCommand s.ksz i = true) :
    exec i s = .next (s.setState (blockStep s.ks s.state i)).complete := by
  cases i
  case subb | isubb | shrow | ishrow | mixcol | imixcol => rfl
  case addrk n =>
    have hle : n.toNat ≤ 14 := (of_decide_eq_true h).trans (nr_le s.ksz)
    simp only [blockStep, argIndex_of_le hle]
    exact completeAt_of_le hle
  all_goals cases h

/-- A command of the cipher is well formed, and with KSV = 1 passes the checks of acceptance (rule R280). -/
theorem accepted_of_roundCommand {i : Instr} {z : KeySize} (h : roundCommand z i = true) :
    i.wellFormed = true ∧ ∀ n, i = .addrk n → n.toNat ≤ z.nr := by
  cases i
  case subb | isubb | shrow | ishrow | mixcol | imixcol => exact ⟨rfl, nofun⟩
  case addrk n =>
    have hle := of_decide_eq_true h
    refine ⟨decide_eq_true (hle.trans (nr_le z)), ?_⟩
    rintro m ⟨⟩
    exact hle
  all_goals cases h

/-- A sequence of commands of the cipher is accepted and completes, and leaves `blockAfter` of STATE. -/
theorem acceptedRun_of_roundCommands {is : List Instr} {s : State} (hne : is ≠ []) (hp : s.pend = none)
    (he : s.err = false) (hk : s.ksv = true) (h : ∀ i ∈ is, roundCommand s.ksz i = true) :
    AcceptedRun is s (s.setState (blockAfter s.ks is s.state)).complete := by
  induction is generalizing s with
  | nil => exact absurd rfl hne
  | cons i is ih =>
    obtain ⟨hi, his⟩ := List.forall_mem_cons.mp h
    obtain ⟨hw, hn⟩ := accepted_of_roundCommand hi
    refine acceptedRun_cons_of_exec hp he hw (fun n hin => ⟨hn n hin, hk⟩) (exec_of_roundCommand hi) ?_
    by_cases hnil : is = []
    · subst hnil
      rfl
    · exact ih (s := (s.setState (blockStep s.ks s.state i)).complete) hnil rfl he hk his

@[simp] theorem blockAfter_append (ks : Vector Word 60) (is js : List Instr) (b : Block) :
    blockAfter ks (is ++ js) b = blockAfter ks js (blockAfter ks is b) := List.foldl_append

/-- A round key exclusive-ored twice is nothing. -/
@[simp] theorem blockStep_addrk_addrk (ks : Vector Word 60) (b : Block) (n : BitVec 8) :
    blockStep ks (blockStep ks b (.addrk n)) (.addrk n) = b := by
  simp only [blockStep]
  cases argIndex 14 n with
  | none => rfl
  | some k => exact xor_xor_self _ _

/-- `ROUND r` (rules R130, R270). -/
theorem blockAfter_roundCommands (ks : Vector Word 60) (r : Nat) (b : Block) :
    blockAfter ks (roundCommands r) b =
      blockStep ks (mixColumns (shiftRows (subBytes b))) (.addrk (BitVec.ofNat 8 r)) := rfl

/-- `IROUND r` (rules R130, R271). -/
theorem blockAfter_inverseRoundCommands (ks : Vector Word 60) (r : Nat) (b : Block) :
    blockAfter ks (inverseRoundCommands r) b =
      invMixColumns (blockStep ks (invSubBytes (invShiftRows b)) (.addrk (BitVec.ofNat 8 r))) := rfl

/-- The inverse rounds n to 1 take back the rounds 1 to n: by induction on n, each inverse round turning SubBytes and ShiftRows of what a round
leaves into SubBytes and ShiftRows of what it was given. -/
theorem blockAfter_inverseRounds (ks : Vector Word 60) (n : Nat) (b : Block) :
    blockAfter ks (inverseRounds n) (shiftRows (subBytes (blockAfter ks (forwardRounds n) b))) = shiftRows (subBytes b) := by
  induction n with
  | zero => rfl
  | succ n ih =>
    simp only [forwardRounds, inverseRounds, blockAfter_append, blockAfter_roundCommands, blockAfter_inverseRoundCommands,
      invShiftRows_shiftRows, invSubBytes_subBytes, blockStep_addrk_addrk, invMixColumns_mixColumns, ih]

/-- The forward cipher: round key 0, the rounds but the last, and the last without MixColumns (rule R270). -/
theorem blockAfter_forwardCipher (ks : Vector Word 60) (z : KeySize) (b : Block) :
    blockAfter ks (forwardCipher z) b =
      blockStep ks (shiftRows (subBytes (blockAfter ks (forwardRounds (z.nr - 1)) (blockStep ks b (.addrk 0)))))
        (.addrk (BitVec.ofNat 8 z.nr)) := by
  simp only [forwardCipher, blockAfter_append]
  rfl

/-- The inverse cipher: the last round key, the inverse rounds, and the last of them without InvMixColumns (rule R271). -/
theorem blockAfter_inverseCipher (ks : Vector Word 60) (z : KeySize) (b : Block) :
    blockAfter ks (inverseCipher z) b =
      blockStep ks (invSubBytes (invShiftRows
        (blockAfter ks (inverseRounds (z.nr - 1)) (blockStep ks b (.addrk (BitVec.ofNat 8 z.nr)))))) (.addrk 0) := by
  simp only [inverseCipher, blockAfter_append]
  rfl

/-- The inverse cipher takes back the forward cipher, for every key size and schedule. -/
theorem blockAfter_inverseCipher_forwardCipher (ks : Vector Word 60) (z : KeySize) (b : Block) :
    blockAfter ks (inverseCipher z) (blockAfter ks (forwardCipher z) b) = b := by
  rw [blockAfter_inverseCipher, blockAfter_forwardCipher, blockStep_addrk_addrk, blockAfter_inverseRounds,
    invShiftRows_shiftRows, invSubBytes_subBytes, blockStep_addrk_addrk]

theorem roundCommand_of_mem_forwardCipher (z : KeySize) : ∀ i ∈ forwardCipher z, roundCommand z i = true := by
  cases z <;> decide

theorem roundCommand_of_mem_inverseCipher (z : KeySize) : ∀ i ∈ inverseCipher z, roundCommand z i = true := by
  cases z <;> decide

theorem forwardCipher_length (z : KeySize) : (forwardCipher z).length = 4 * z.nr := by cases z <;> rfl

theorem inverseCipher_length (z : KeySize) : (inverseCipher z).length = 4 * z.nr := by cases z <;> rfl

/-- Settles O58: both sequences are accepted and complete (`acceptedRun_of_roundCommands`), and the inverse cipher takes the block back. -/
theorem cipherRoundTrip : Obligations.CipherRoundTrip := by
  intro s hp he hk
  have hforward := acceptedRun_of_roundCommands (by simp [forwardCipher]) hp he hk (roundCommand_of_mem_forwardCipher s.ksz)
  have hinverse := acceptedRun_of_roundCommands (s := (s.setState (blockAfter s.ks (forwardCipher s.ksz) s.state)).complete)
    (by simp [inverseCipher]) rfl he hk (roundCommand_of_mem_inverseCipher s.ksz)
  rw [complete_state, setState_state, complete_ks, setState_ks, blockAfter_inverseCipher_forwardCipher] at hinverse
  have hdone (b : Block) : ((s.setState b).complete.setState s.state).complete = { s with done := true } := by
    change ({ s with pend := none, done := true } : State) = _
    rw [← hp]
  rw [hdone] at hinverse
  exact ⟨forwardCipher_length _, inverseCipher_length _, _, hforward, hinverse⟩

end Sys2Proof.Machine
end
